-- ==== Sys2Proof/Word.lean ====
section
/-! DEFINITION. The word types of the framer block (spec/00_scope.md R7): bits are numbered from 0 (least
significant) upwards and every value is unsigned. -/

namespace Sys2Proof

/-- One byte of a buffer or of the wire (R7). -/
abbrev Byte := BitVec 8

/-- A 16-bit value: a timestamp, a length field, a checksum (R7). -/
abbrev Half := BitVec 16

/-- A 32-bit value: the command word or one of the operand words `A`, `B`, `C` (R80). -/
abbrev Word := BitVec 32

end Sys2Proof
end

