-- ==== Sys2Proof/Config.lean ====
section
/-! DEFINITION. The implementation parameters of spec/00_scope.md R6, the offsets of spec/10_state.md R22, and
the one free value of the model, the answer of the clock collaborator (R32, R210). -/

namespace Sys2Proof.Config

/-- `MAX_PAYLOAD` (R6): capacity of the payload region and largest accepted `sourceLength`. -/
abbrev maxPayload : Nat := 1024

/-- `HDR_BYTE0` (R6, R54): byte 0 of the frame-sync marker. -/
def hdrByte0 : Byte := 0xDE

/-- `HDR_BYTE1` (R6, R54): byte 1 of the frame-sync marker. -/
def hdrByte1 : Byte := 0xAB

/-- `CRC_INIT` (R6, R120): initial value of the CRC register. -/
def crcInit : Half := 0xFFFF

/-- `CRC_POLY` (R6, R120): the constant XORed in after a right shift that shifted out a 1. -/
def crcPoly : Half := 0xA001

/-- `ID_WIDTH` (R6): bytes of a record identifier in the canonical layout. -/
abbrev idWidth : Nat := 1

/-- `NKIND` (R6): number of record kinds. -/
abbrev nKind : Nat := 6

/-- `TEXT_CLAMP` (R6, R96): largest text length after clamping. -/
abbrev textClamp : Nat := 1024

/-- `NPKT` (R6, D4): number of persistent Packet buffers. -/
abbrev nPkt : Nat := 6

/-- `PKT_BYTES` (R6, D7): storage size of one Packet buffer. -/
abbrev pktBytes : Nat := 1032

/-- Size of the record staging buffer `REC` (R33). -/
abbrev recBytes : Nat := 1027

/-- Size of `SRC`, indexed by a 16-bit offset (R30, D6). -/
abbrev srcBytes : Nat := 65536

/-- Offset of the `timestamp` field of a Packet buffer (R22). -/
abbrev offTimestamp : Nat := 2

/-- Offset of the `payload_size` field (R22); also the size of the `header`, `timestamp` fields together. -/
abbrev offPayloadSize : Nat := 4

/-- Offset of the `payload` field (R22); also the size of write 1 of a frame (R145). -/
abbrev offPayload : Nat := 6

/-- Offset of the `checksum` field (R22). -/
abbrev offChecksum : Nat := 1030

/-- `RATE_HZ[1..6]` (R6, R211): the nominal reporting rates, a declared intent that no rule reads. -/
def rateHz : List Nat := [1, 1, 50, 2, 0, 0]

/-- The smallest `CLOCK_WIDTH` (R6: OPEN, at least 32).  The parameter itself is an argument of the model,
`State.clockWidth`, over which every statement quantifies. -/
abbrev minClockWidth : Nat := 32

/-- The default of `CLOCK_WIDTH` (R6). -/
abbrev defaultClockWidth : Nat := 32

/-- FREE VALUE: the number whose low `CLOCK_WIDTH` bits the clock collaborator answers to its `n`-th read when the
environment's script (`State.clock`) says nothing (R32, U5: "any value" per read).  Log entry 2. -/
opaque freeClock : Nat → Nat

end Sys2Proof.Config
end

