-- ==== Sys2Proof/Syntax.lean ====
section
/-! DEFINITION. The record kinds (spec/10_state.md R21, spec/30_encoding.md R87) and the ten commands of
spec/opcode_table.json with the operands of spec/30_encoding.md R83. -/

namespace Sys2Proof

/-- The six record kinds (R21, R87).  Kind `k` owns the Packet buffer `PKT[k]` (D4). -/
inductive Kind
  | date | time | adcSample | textMessage | buttonState | mcuTemperature
deriving DecidableEq, Repr

/-- The ten commands (R11, R97), each with the fields and operands R83 says it uses.  `sp` is the source-present
bit; `pkt` (a handle, 3 bits) and `len` (a byte count, 16 bits) are numbers that the rules only compare and count
with, and `Instr.wellFormed` bounds them by their fields. -/
inductive Instr
  | sendDate (day month year : Word)
  | sendTime (hour : Byte) (minute second : Half)
  | sendAdc (sampleCount : Word) (value : Half)
  | sendText (sp : Bool) (len : Nat)
  | sendButton (buttonId : Byte) (state : Half)
  | sendTemp (value : Half)
  | crc16 (sp : Bool) (len : Nat)
  | pack (pkt : Nat) (sp : Bool) (len : Nat)
  | send (pkt : Nat)
  | senddata (pkt : Nat) (sp : Bool) (len : Nat)
deriving DecidableEq, Repr

/-- The mnemonic of a command as spec/opcode_table.json spells it (R11). -/
def Instr.mnemonic : Instr → String
  | .sendDate _ _ _ => "SEND_DATE"
  | .sendTime _ _ _ => "SEND_TIME"
  | .sendAdc _ _ => "SEND_ADC"
  | .sendText _ _ => "SEND_TEXT"
  | .sendButton _ _ => "SEND_BUTTON"
  | .sendTemp _ => "SEND_TEMP"
  | .crc16 _ _ => "CRC16"
  | .pack _ _ _ => "PACK"
  | .send _ => "SEND"
  | .senddata _ _ _ => "SENDDATA"

/-- The token for the `sp` bit in the textual form (R104). -/
def sourceToken (sp : Bool) : String := if sp then "src" else "nosrc"

/-- The textual form of a command (R104), numbers in decimal. -/
def Instr.asm : Instr → String
  | .sendDate d m y => "SEND_DATE " ++ toString d.toNat ++ ", " ++ toString m.toNat ++ ", " ++ toString y.toNat
  | .sendTime h m x => "SEND_TIME " ++ toString h.toNat ++ ", " ++ toString m.toNat ++ ", " ++ toString x.toNat
  | .sendAdc n v => "SEND_ADC " ++ toString n.toNat ++ ", " ++ toString v.toNat
  | .sendText sp len => "SEND_TEXT " ++ sourceToken sp ++ ", " ++ toString len
  | .sendButton b v => "SEND_BUTTON " ++ toString b.toNat ++ ", " ++ toString v.toNat
  | .sendTemp v => "SEND_TEMP " ++ toString v.toNat
  | .crc16 sp len => "CRC16 " ++ sourceToken sp ++ ", " ++ toString len
  | .pack pkt sp len => "PACK p" ++ toString pkt ++ ", " ++ sourceToken sp ++ ", " ++ toString len
  | .send pkt => "SEND p" ++ toString pkt
  | .senddata pkt sp len => "SENDDATA p" ++ toString pkt ++ ", " ++ sourceToken sp ++ ", " ++ toString len

end Sys2Proof
end

