-- ==== Sys2Proof/WellFormed.lean ====
section
/-! DEFINITION. Which commands the command word can hold (spec/30_encoding.md R82): `pkt` fits 3 bits and `len`
fits 16 bits.  The other operands have their field's width by type. -/

namespace Sys2Proof

/-- `pkt` is a 3-bit field (R82). -/
def handleFits (pkt : Nat) : Bool := decide (pkt < 8)

/-- `len` is a 16-bit field (R82, D6). -/
def lengthFits (len : Nat) : Bool := decide (len < 65536)

/-- The command's fields fit the fields of the command word (R82). -/
def Instr.wellFormed : Instr → Bool
  | .sendDate _ _ _ => true
  | .sendTime _ _ _ => true
  | .sendAdc _ _ => true
  | .sendText _ len => lengthFits len
  | .sendButton _ _ => true
  | .sendTemp _ => true
  | .crc16 _ len => lengthFits len
  | .pack pkt _ len => handleFits pkt && lengthFits len
  | .send pkt => handleFits pkt
  | .senddata pkt _ len => handleFits pkt && lengthFits len

end Sys2Proof
end

