-- ==== Sys2Proof/Decode.lean ====
section
/-! DEFINITION. The command unit (spec/30_encoding.md R80), its decoder (R82, R83, R97, R98), the opcode table
with masks (R97), and the encoder, which is the assembler of R104. -/

namespace Sys2Proof

/-- The words of one command: the command word `CW` and the operand words `A`, `B`, `C` (R80). -/
structure CommandWords where
  cw : Word
  a : Word
  b : Word
  c : Word
deriving DecidableEq, Repr

/-- Why a command word is a reserved encoding (R98). -/
inductive ReservedReason
  /-- `CW[23:20]` is not 0000 (R100). -/
  | reservedBits
  /-- `CW[31:24]` is none of the ten opcodes (R99). -/
  | reservedOp
deriving DecidableEq, Repr

/-- What a decoder answers: one of the ten commands, or "reserved" (R98). -/
inductive Decoded
  | command (i : Instr)
  | reserved (why : ReservedReason)
deriving DecidableEq, Repr

/-- `op = CW[31:24]` (R82). -/
def opField (cw : Word) : Nat := (cw.extractLsb' 24 8).toNat

/-- `rsv = CW[23:20]` (R82). -/
def rsvField (cw : Word) : Nat := (cw.extractLsb' 20 4).toNat

/-- `sp = CW[19]` (R82). -/
def spField (cw : Word) : Bool := cw.getLsbD 19

/-- `pkt = CW[18:16]` (R82). -/
def pktField (cw : Word) : Nat := (cw.extractLsb' 16 3).toNat

/-- `len = CW[15:0]` (R82). -/
def lenField (cw : Word) : Nat := (cw.extractLsb' 0 16).toNat

/-- An 8-bit operand: the low bits of its word, the rest ignored (R83). -/
def operand8 (w : Word) : Byte := w.setWidth 8

/-- A 16-bit operand: the low bits of its word, the rest ignored (R83). -/
def operand16 (w : Word) : Half := w.setWidth 16

/-- The opcode map (R97) and the fields each command uses (R83). -/
def decodeOp (w : CommandWords) : Decoded :=
  match opField w.cw with
  | 0x01 => .command (.sendDate w.a w.b w.c)
  | 0x02 => .command (.sendTime (operand8 w.a) (operand16 w.b) (operand16 w.c))
  | 0x03 => .command (.sendAdc w.a (operand16 w.b))
  | 0x04 => .command (.sendText (spField w.cw) (lenField w.cw))
  | 0x05 => .command (.sendButton (operand8 w.a) (operand16 w.b))
  | 0x06 => .command (.sendTemp (operand16 w.a))
  | 0x10 => .command (.crc16 (spField w.cw) (lenField w.cw))
  | 0x11 => .command (.pack (pktField w.cw) (spField w.cw) (lenField w.cw))
  | 0x12 => .command (.send (pktField w.cw))
  | 0x13 => .command (.senddata (pktField w.cw) (spField w.cw) (lenField w.cw))
  | _ => .reserved .reservedOp

/-- The decoder (R98): reserved bits first, then the opcode map. -/
def decode (w : CommandWords) : Decoded :=
  if rsvField w.cw ≠ 0 then .reserved .reservedBits else decodeOp w

/-- The command unit as one number whose bit 0 is bit 0 of `CW`; `A`, `B`, `C` count on from bit 32. -/
def wordsOfNat (n : Nat) : CommandWords :=
  { cw := BitVec.ofNat 32 n
    a := BitVec.ofNat 32 (n / 2 ^ 32)
    b := BitVec.ofNat 32 (n / 2 ^ 64)
    c := BitVec.ofNat 32 (n / 2 ^ 96) }

/-- The host's question: the command this decoder reads from an `nbits`-bit unit `w`, bits above it zero. -/
def decodeTableWord (nbits w : Nat) : Option Instr :=
  match decode (wordsOfNat (w % 2 ^ nbits)) with
  | .command i => some i
  | .reserved _ => none

/-- The command word with opcode `op` and the given fields: `(op << 24) + (sp << 19) + (pkt << 16) + len` (R104). -/
def commandWord (op : Nat) (sp : Bool) (pkt len : Nat) : Word :=
  BitVec.ofNat 32 (op * 2 ^ 24 + sp.toNat * 2 ^ 19 + pkt * 2 ^ 16 + len)

/-- The canonical encoding (R102, R104): fields not named by the command's syntax are zero. -/
def encode : Instr → CommandWords
  | .sendDate d m y => { cw := commandWord 0x01 false 0 0, a := d, b := m, c := y }
  | .sendTime h m x =>
      { cw := commandWord 0x02 false 0 0, a := h.setWidth 32, b := m.setWidth 32, c := x.setWidth 32 }
  | .sendAdc n v => { cw := commandWord 0x03 false 0 0, a := n, b := v.setWidth 32, c := 0 }
  | .sendText sp len => { cw := commandWord 0x04 sp 0 len, a := 0, b := 0, c := 0 }
  | .sendButton b v => { cw := commandWord 0x05 false 0 0, a := b.setWidth 32, b := v.setWidth 32, c := 0 }
  | .sendTemp v => { cw := commandWord 0x06 false 0 0, a := v.setWidth 32, b := 0, c := 0 }
  | .crc16 sp len => { cw := commandWord 0x10 sp 0 len, a := 0, b := 0, c := 0 }
  | .pack pkt sp len => { cw := commandWord 0x11 sp pkt len, a := 0, b := 0, c := 0 }
  | .send pkt => { cw := commandWord 0x12 false pkt 0, a := 0, b := 0, c := 0 }
  | .senddata pkt sp len => { cw := commandWord 0x13 sp pkt len, a := 0, b := 0, c := 0 }

/-- One row of the opcode table (R97; spec/opcode_table.json). -/
structure OpcodeRow where
  mnemonic : String
  matchBits : Word
  mask : Word
deriving DecidableEq, Repr

/-- The opcode table as spec/opcode_table.json writes it, masks and match values (R97). -/
def opcodeTable : List OpcodeRow :=
  [ { mnemonic := "SEND_DATE", matchBits := 0x01000000, mask := 0xFFF00000 },
    { mnemonic := "SEND_TIME", matchBits := 0x02000000, mask := 0xFFF00000 },
    { mnemonic := "SEND_ADC", matchBits := 0x03000000, mask := 0xFFF00000 },
    { mnemonic := "SEND_TEXT", matchBits := 0x04000000, mask := 0xFFF00000 },
    { mnemonic := "SEND_BUTTON", matchBits := 0x05000000, mask := 0xFFF00000 },
    { mnemonic := "SEND_TEMP", matchBits := 0x06000000, mask := 0xFFF00000 },
    { mnemonic := "CRC16", matchBits := 0x10000000, mask := 0xFFF00000 },
    { mnemonic := "PACK", matchBits := 0x11000000, mask := 0xFFF00000 },
    { mnemonic := "SEND", matchBits := 0x12000000, mask := 0xFFF00000 },
    { mnemonic := "SENDDATA", matchBits := 0x13000000, mask := 0xFFF00000 } ]

/-- The word `cw` matches the row (R97: `CW` and mask equals match). -/
def OpcodeRow.matchesWord (r : OpcodeRow) (cw : Word) : Bool := cw &&& r.mask == r.matchBits

end Sys2Proof
end

