-- ==== Sys2Proof/Machine/State.lean ====
section
/-! DEFINITION. The state of the framer block (spec/10_state.md R20 to R37), what the host, the clock and the
sink show it (R30, R32, R81, R213), the histories a model keeps (R20, R31, R84), and the state after reset (R36). -/

namespace Sys2Proof.Machine

/-- A byte-addressed space (R50): (offset, byte) pairs, offsets strictly rising, no byte equal to what an unlisted
offset reads as (`unlistedByte`, Machine/Ops.lean).  `Mem.wf` states that form. -/
abbrev Mem := List Host.Cell

/-- The six Packet buffers `PKT[1]` to `PKT[6]` (R21). -/
structure Packets where
  p1 : Mem
  p2 : Mem
  p3 : Mem
  p4 : Mem
  p5 : Mem
  p6 : Mem
deriving DecidableEq, Repr

/-- `phase` (R25): which of the three writes of a SEND the sequencer is emitting. -/
inductive Phase
  /-- `IDLE` -/
  | idle
  /-- `PREFIX`: write 1 -/
  | prefixWrite
  /-- `PAYLOAD`: write 2 -/
  | payloadWrite
  /-- `CHECKSUM`: write 3 -/
  | checksumWrite
deriving DecidableEq, Repr

/-- One write issued to the byte sink, `transmit(bytes, count)` (R31, R212).  `count` is announced when the write is
opened (R148); a write is complete when it has that many bytes. -/
structure Write where
  count : Nat
  bytes : List Byte
deriving DecidableEq, Repr

/-- The reasons for which a command is rejected (R200).  Labels of the spec; the hardware does not output them. -/
inductive Reject
  /-- code 1, `REJ_RESERVED` -/
  | reserved
  /-- code 2, `REJ_NO_PACKET` -/
  | noPacket
  /-- code 3, `REJ_NO_SOURCE` -/
  | noSource
  /-- code 4, `REJ_TOO_LONG` -/
  | tooLong
  /-- code 5, `REJ_ZERO_SIZE` -/
  | zeroSize
deriving DecidableEq, Repr

/-- The response of a command with its meaningful fields only (R84). -/
inductive Response
  /-- `has_result = 0` -/
  | noResult
  /-- `has_result = 1` with `ok`, no checksum -/
  | status (ok : Bool)
  /-- `has_result = 1`, `ok = 1` and `crc` -/
  | checksum (value : Half)
deriving DecidableEq, Repr

/-- One completed command: its response, and the label of its rejection, which is ghost information (R200, D13). -/
structure Report where
  response : Response
  label : Option Reject
deriving DecidableEq, Repr

/-- One command as the host presents it (R80): the words, and the source buffer it supplies when `CW.sp = 1`. -/
structure Command where
  words : CommandWords
  src : Mem
deriving DecidableEq, Repr

/-- What the host shows the block, in the order it shows it (R81, R213). -/
inductive HostEvent
  /-- `cmd_valid = 1` with this command, held until it is accepted -/
  | command (c : Command)
  /-- the inspection port selects byte `a` of packet `k` (R37) -/
  | inspect (k : BitVec 3) (a : BitVec 11)
  /-- nothing is presented during one step -/
  | idle
  /-- `rst` is asserted and released (R230) -/
  | reset
deriving DecidableEq, Repr

/-- The reasons a step stops the machine.  The block has no fault mechanism (R201): each of these is raised only
in states or for terms that no run reaches, where the spec gives no rule. -/
inductive Fault
  /-- Raised by CRC16 for `len` above 65536, which no command word can hold: `SRC` has no such offset (R30).
  Safe: it stops where the spec gives no behaviour. -/
  | sourceOffsetOutOfRange
  /-- Raised by SEND and by the sequencer when the stored `payload_size` is above 1024, which no run reaches (R23 (a));
  the spec gives no rule for it (spec/91_not_in_source.md N19).  Safe. -/
  | payloadSizeOutOfRange
  /-- Raised by a step with `busy = 1` when no frame is being emitted, which no run reaches (R25, R26).  Safe. -/
  | noFrameInProgress
deriving DecidableEq, Repr

/-- The reasons a step is refused. -/
inductive Refusal
  /-- Raised by exec's arm of an instruction that has no meaning yet.  Safe. -/
  | notModelled (mnemonic : String)
  /-- Raised by a step whose host event is an inspection outside the port's contract: `k` outside 1 to 6, `a` above
  1031, or `busy = 1` (R37, R241: "a model refuses it").  Safe. -/
  | inspectionOutsideContract
deriving DecidableEq, Repr

/-- The whole state.  `pkts` to `busy` and `recBuf` are the block's own state (R20, R29); `sink`, `reports`,
`inspected`, `wireBeforeReset` record what the block has shown the outside (R31, R84, R37, R231); `current`, `src`,
`host`, `clockWidth`, `clock`, `clockReads`, `txReady` are what the host, the clock and the sink show the block (R28, R30, R32, R149). -/
structure State where
  /-- `PKT[1..6]` (R21) -/
  pkts : Packets
  /-- the CRC working register (R24) -/
  crc : Half
  /-- the sequencer's phase (R25) -/
  phase : Phase
  /-- the sequencer's byte index, 11 bits (R25, C8) -/
  idx : BitVec 11
  /-- 1 from the acceptance of a command until its end (R26) -/
  busy : Bool
  /-- `REC`, which has no value outside a sender command: `none` there (R33) -/
  recBuf : Option Mem
  /-- `SINK`, the writes issued since reset, oldest first (R31) -/
  sink : List Write
  /-- the responses given, oldest first (R84) -/
  reports : List Report
  /-- the bytes the inspection port has answered, oldest first (R37) -/
  inspected : List Byte
  /-- the bytes handed to the sink before the last reset (R231) -/
  wireBeforeReset : List Byte
  /-- the command held on the port while it runs (R28) -/
  current : Option Instr
  /-- `SRC`, the source buffer supplied with the command that runs (R30) -/
  src : Mem
  /-- what the host will show the block, next first (R81) -/
  host : List HostEvent
  /-- the parameter `CLOCK_WIDTH` (R6: OPEN), the width of the clock's bus: no step changes it (log entry 19) -/
  clockWidth : Nat
  /-- what the clock will answer, next first, each by its low `CLOCK_WIDTH` bits; when it is empty the answer is free
  (R32) -/
  clock : List Nat
  /-- how many times the clock has been read -/
  clockReads : Nat
  /-- whether the sink accepts the byte next offered to it, next first; when it is empty it accepts (R149, R212) -/
  txReady : List Bool
deriving DecidableEq, Repr

/-- The result type of a step and of every meaning. -/
abbrev Outcome := Host.Outcome State Fault Refusal

/-- Six Packet buffers whose every byte is 0x00 (R36): nothing listed. -/
def Packets.zero : Packets := { p1 := [], p2 := [], p3 := [], p4 := [], p5 := [], p6 := [] }

/-- The machine right after reset (R36, R230): every Packet byte 0x00, `crc = 0xFFFF`, sequencer idle, `busy = 0`,
`SINK` empty, and nothing shown by the environment. -/
def State.reset : State :=
  { pkts := Packets.zero
    crc := 0xFFFF
    phase := .idle
    idx := 0
    busy := false
    recBuf := none
    sink := []
    reports := []
    inspected := []
    wireBeforeReset := []
    current := none
    src := []
    host := []
    clockWidth := Config.defaultClockWidth
    clock := []
    clockReads := 0
    txReady := [] }

end Sys2Proof.Machine
end

