-- ==== Sys2Proof/Machine/Ops.lean ====
section
/-! DEFINITION. The named operations over memory, packets, clock and sink (spec/00_scope.md R9, spec/20_memory.md
R54 to R59), the end of a command, and rejection, the one shared operation every guard uses
(spec/60_exceptions.md R202). -/

namespace Sys2Proof.Machine

/-! ### Bytes and byte order -/

/-- `le16(v)` (R8, R55): bits 7:0 first. -/
def le16 (v : Half) : List Byte := [v.extractLsb' 0 8, v.extractLsb' 8 8]

/-- `le32(v)` (R8, R55): bits 7:0 first. -/
def le32 (v : Word) : List Byte :=
  [v.extractLsb' 0 8, v.extractLsb' 8 8, v.extractLsb' 16 8, v.extractLsb' 24 8]

/-- The 16-bit value of two bytes, the first being bits 7:0 (R9, R55). -/
def half (lo hi : Byte) : Half := hi ++ lo

/-- The 32-bit value of four bytes, the first being bits 7:0 (R9, R55). -/
def word (b0 b1 b2 b3 : Byte) : Word := b3 ++ b2 ++ b1 ++ b0

/-! ### A byte-addressed space -/

/-- What an unlisted offset reads as: the reset content of every Packet byte (R36). -/
def unlistedByte : Byte := 0x00

/-- `S[a]` (R9). -/
def Mem.read : Mem → Nat → Byte
  | [], _ => unlistedByte
  | (b, v) :: rest, a => if a = b then v else Mem.read rest a

/-- Lists byte `v` at offset `a`, keeping the offsets rising. -/
def Mem.place : Mem → Nat → Byte → Mem
  | [], a, v => [(a, v)]
  | (b, w) :: rest, a, v =>
      if a < b then (a, v) :: (b, w) :: rest
      else if a = b then (a, v) :: rest
      else (b, w) :: Mem.place rest a v

/-- `MemWrite(S, a, 1, v)` (R9): the byte an unlisted offset reads as is not listed. -/
def Mem.write (m : Mem) (a : Nat) (v : Byte) : Mem :=
  if v = unlistedByte then m.filter (fun c => c.1 ≠ a) else Mem.place m a v

/-- The canonical form: offsets strictly rising, no listed byte that an unlisted offset reads as. -/
def Mem.wf : Mem → Bool
  | [] => true
  | (a, v) :: rest => v != unlistedByte && rest.all (fun c => decide (a < c.1)) && Mem.wf rest

/-- Every listed offset is below `n`, the size of the space. -/
def Mem.within (m : Mem) (n : Nat) : Bool := m.all (fun c => decide (c.1 < n))

/-- `S[a .. a+n)` (R8): bytes at consecutive offsets, lowest first. -/
def readBytes (m : Mem) (a : Nat) : Nat → List Byte
  | 0 => []
  | n + 1 => Mem.read m a :: readBytes m (a + 1) n

/-- Writes bytes at consecutive offsets, lowest first (R57: every access is single-byte accesses in order). -/
def writeBytes (m : Mem) (a : Nat) : List Byte → Mem
  | [] => m
  | b :: bs => writeBytes (Mem.write m a b) (a + 1) bs

/-- `MemRead(S, a, 2)` (R9). -/
def read16 (m : Mem) (a : Nat) : Half := half (Mem.read m a) (Mem.read m (a + 1))

/-- `MemRead(S, a, 4)` (R9). -/
def read32 (m : Mem) (a : Nat) : Word :=
  word (Mem.read m a) (Mem.read m (a + 1)) (Mem.read m (a + 2)) (Mem.read m (a + 3))

/-- `MemWrite(S, a, 2, v)` (R9). -/
def write16 (m : Mem) (a : Nat) (v : Half) : Mem := writeBytes m a (le16 v)

/-- `MemWrite(S, a, 4, v)` (R9). -/
def write32 (m : Mem) (a : Nat) (v : Word) : Mem := writeBytes m a (le32 v)

/-! ### Packet buffers -/

/-- The buffer of kind `k` (R21). -/
def Packets.get (p : Packets) : Kind → Mem
  | .date => p.p1
  | .time => p.p2
  | .adcSample => p.p3
  | .textMessage => p.p4
  | .buttonState => p.p5
  | .mcuTemperature => p.p6

/-- Replaces the buffer of kind `k` and no other (R21: "no two kinds share a buffer"). -/
def Packets.set (p : Packets) (k : Kind) (m : Mem) : Packets :=
  match k with
  | .date => { p with p1 := m }
  | .time => { p with p2 := m }
  | .adcSample => { p with p3 := m }
  | .textMessage => { p with p4 := m }
  | .buttonState => { p with p5 := m }
  | .mcuTemperature => { p with p6 := m }

/-- `PKT[k]`. -/
def State.pkt (s : State) (k : Kind) : Mem := s.pkts.get k

/-- `PKT[k] <- m`. -/
def State.setPkt (s : State) (k : Kind) (m : Mem) : State := { s with pkts := s.pkts.set k m }

/-- Writes bytes into `PKT[k]` from offset `a` upwards. -/
def writePkt (k : Kind) (a : Nat) (bs : List Byte) (s : State) : State :=
  s.setPkt k (writeBytes (s.pkt k) a bs)

/-- The `payload_size` field of a buffer (R22). -/
def payloadSize (m : Mem) : Nat := (read16 m Config.offPayloadSize).toNat

/-! ### The collaborators -/

/-- What the bus `clk_ms[CLOCK_WIDTH-1:0]` carries of the number `now` (R6, R210, R213): its low `CLOCK_WIDTH` bits. -/
def clockBus (width now : Nat) : Nat := now % 2 ^ width

/-- `ClockRead()` (R9, R32, R210): the clock's next answer, an unsigned value of `CLOCK_WIDTH` bits, and the state in
which it has been read. -/
def clockRead (s : State) : Nat × State :=
  match s.clock with
  | [] => (clockBus s.clockWidth (Config.freeClock s.clockReads), { s with clockReads := s.clockReads + 1 })
  | t :: rest => (clockBus s.clockWidth t, { s with clock := rest, clockReads := s.clockReads + 1 })

/-- `SinkWrite(bs)` (R9, R31): one more write, complete. -/
def sinkWrite (bs : List Byte) (s : State) : State :=
  { s with sink := s.sink ++ [{ count := bs.length, bytes := bs }] }

/-- The bytes of a write history in order. -/
def sinkBytes (ws : List Write) : List Byte := ws.flatMap (fun w => w.bytes)

/-- Every byte handed to the sink, oldest first, also before the last reset (R31, R231). -/
def wire (s : State) : List Byte := s.wireBeforeReset ++ sinkBytes s.sink

/-! ### The beginning and the end of a command -/

/-- Acceptance (R81): `busy <- 1`, the command and its source buffer are held on the port until its end (R28, R237). -/
def acceptCommand (c : Command) (i : Option Instr) (rest : List HostEvent) (s : State) : State :=
  { s with busy := true, current := i, src := c.src, host := rest }

/-- The end of a command (R81, R84): the response is given, `REC` is discarded (R33), `busy <- 0`. -/
def finish (response : Response) (label : Option Reject) (s : State) : State :=
  { s with
    busy := false
    current := none
    recBuf := none
    reports := s.reports ++ [{ response := response, label := label }] }

/-- `reject(why)` (R9, R202): the command ends and nothing else happens. -/
def reject (why : Reject) (response : Response) (s : State) : State := finish response (some why) s

/-- `rst` (R230, R231): the block's state takes its reset values and no response is given; bytes already handed to
the sink stay sent, and what the environment goes on to show is its own. -/
def hostReset (rest : List HostEvent) (s : State) : State :=
  { State.reset with
    wireBeforeReset := wire s
    reports := s.reports
    inspected := s.inspected
    host := rest
    clockWidth := s.clockWidth
    clock := s.clock
    clockReads := s.clockReads
    txReady := s.txReady }

/-- How far a command has come when its guards and its PACK step are done: ended, about to emit `PKT[k]` as a frame,
or stopped. -/
inductive Begun
  | ended (s : State)
  | framing (k : Kind) (s : State)
  | stopped (f : Fault)
deriving DecidableEq, Repr

end Sys2Proof.Machine
end

