-- ==== Sys2Proof/Machine/Operands.lean ====
section
/-! DEFINITION. The operand forms of a command (spec/30_encoding.md R83, R95, R96, R101; spec/10_state.md R30):
the handle, the source bytes, the text clamp, the truncated clock value. -/

namespace Sys2Proof.Machine

/-- The Packet a handle names: 1 to 6 are present, 0 and 7 are absent (R101, D5). -/
def handleKind : Nat → Option Kind
  | 1 => some .date
  | 2 => some .time
  | 3 => some .adcSample
  | 4 => some .textMessage
  | 5 => some .buttonState
  | 6 => some .mcuTemperature
  | _ => none

/-- The record identifier of a kind, which is also its handle (R87, D4). -/
def recordId : Kind → Byte
  | .date => 1
  | .time => 2
  | .adcSample => 3
  | .textMessage => 4
  | .buttonState => 5
  | .mcuTemperature => 6

/-- `SRC[0 .. n)` (R30). -/
def readSrc (n : Nat) (s : State) : List Byte := readBytes s.src 0 n

/-- `L = min(len, 1024)` (R96). -/
def clampText (len : Nat) : Nat := min len Config.textClamp

/-- `trunc_16(now)` (R95). -/
def trunc16 (now : Nat) : Half := BitVec.ofNat 16 now

end Sys2Proof.Machine
end

