-- ==== Sys2Proof/Machine/Flags.lean ====
section
/-! DEFINITION. The block has no status flag and no condition code (spec/10_state.md R27): its only result bits are
those of the response (spec/30_encoding.md R84, spec/60_exceptions.md R213), and `cmd_ready` (R81). -/

namespace Sys2Proof.Machine

/-- `has_result` (R84). -/
def Response.hasResult : Response → Bool
  | .noResult => false
  | .status _ => true
  | .checksum _ => true

/-- `ok`, driven to 0 when it has no meaning (R84). -/
def Response.ok : Response → Bool
  | .noResult => false
  | .status ok => ok
  | .checksum _ => true

/-- `crc`, driven to 0 when it has no meaning (R84). -/
def Response.crcBits : Response → Half
  | .noResult => 0
  | .status _ => 0
  | .checksum v => v

/-- `cmd_ready` is 1 exactly when `busy` is 0 (R81). -/
def cmdReady (s : State) : Bool := !s.busy

/-- The code of a rejection label (R200). -/
def Reject.code : Reject → Nat
  | .reserved => 1
  | .noPacket => 2
  | .noSource => 3
  | .tooLong => 4
  | .zeroSize => 5

/-- The response of a command whose frame has been emitted: `ok = 1` for SEND, none for the rest (R84). -/
def frameResponse : Instr → Response
  | .send _ => .status true
  | .sendDate _ _ _ => .noResult
  | .sendTime _ _ _ => .noResult
  | .sendAdc _ _ => .noResult
  | .sendText _ _ => .noResult
  | .sendButton _ _ => .noResult
  | .sendTemp _ => .noResult
  | .crc16 _ _ => .noResult
  | .pack _ _ _ => .noResult
  | .senddata _ _ _ => .noResult

end Sys2Proof.Machine
end

