-- ==== Sys2Proof/Machine/Crc16.lean ====
section
/-! DEFINITION. The CRC16 generator and the `CRC16` command (spec/40_crc16.md). -/

namespace Sys2Proof.Machine

/-- One bit step (R122): the low bit is tested before the logical shift, the constant is XORed in after it. -/
def crcBit (r : Half) : Half :=
  if r.getLsbD 0 then (r >>> 1) ^^^ Config.crcPoly else r >>> 1

/-- `n` bit steps. -/
def crcBits : Nat → Half → Half
  | 0, r => r
  | n + 1, r => crcBits n (crcBit r)

/-- `crc16_byte(r, b)` (R122). -/
def crcByte (r : Half) (b : Byte) : Half := crcBits 8 (r ^^^ b.setWidth 16)

/-- The fold of `crc16_byte` over a byte sequence, from any register value (R123 (c)). -/
def crcFrom (r : Half) (bs : List Byte) : Half := bs.foldl crcByte r

/-- `crc16(s)` (R121). -/
def crc16 (bs : List Byte) : Half := crcFrom Config.crcInit bs

/-- CRC16 up to its end (R124, R125). -/
def beginCrc16 (sp : Bool) (len : Nat) (s : State) : Begun :=
  if 0 < len ∧ sp = false then .ended (reject .noSource (.status false) s)
  else if Config.srcBytes < len then .stopped .sourceOffsetOutOfRange
  else
    let v := crc16 (readSrc len s)
    .ended (finish (.checksum v) none { s with crc := v })

end Sys2Proof.Machine
end

