-- ==== Sys2Proof/Machine/Framer.lean ====
section
/-! DEFINITION. The packet-buffer formatter and the frame of three writes: `PACK` and `SEND`
(spec/41_framer_pack_send.md), and the way a begun command runs to its end as one step. -/

namespace Sys2Proof.Machine

/-- The writes of a PACK whose guards have passed, in the order of R140: marker, timestamp (one clock read),
`payload_size`, the `len` payload bytes, and the checksum over the used span. -/
def layOut (k : Kind) (len : Nat) (data : List Byte) (s : State) : State :=
  let s1 := writePkt k 0 [Config.hdrByte0] s
  let s2 := writePkt k 1 [Config.hdrByte1] s1
  let read := clockRead s2
  let s3 := writePkt k Config.offTimestamp (le16 (trunc16 read.1)) read.2
  let s4 := writePkt k Config.offPayloadSize (le16 (BitVec.ofNat 16 len)) s3
  let s5 := writePkt k Config.offPayload data s4
  let c := crc16 (readBytes (s5.pkt k) 0 (Config.offPayload + len))
  writePkt k Config.offChecksum (le16 c) { s5 with crc := c }

/-- The PACK step after the handle and source guards (R140, R171): refused above 1024 bytes. -/
def packStep (k : Kind) (len : Nat) (data : List Byte) (s : State) : Except Reject State :=
  if Config.maxPayload < len then .error .tooLong else .ok (layOut k len data s)

/-- The SEND step (R145): three ordered writes; the sequencer is back at `IDLE`, 0 after them (R148). -/
def sendStep (k : Kind) (s : State) : State :=
  let m := s.pkt k
  let s1 := sinkWrite (readBytes m 0 Config.offPayload) s
  let s2 := sinkWrite (readBytes m Config.offPayload (payloadSize m)) s1
  let s3 := sinkWrite (readBytes m Config.offChecksum 2) s2
  { s3 with phase := .idle, idx := 0 }

/-- Runs a begun command to its end as one step (R60, R62): a frame is emitted whole, then the response is given. -/
def runWhole (response : Response) : Begun → Outcome
  | .ended s => .next s
  | .framing k s => .next (finish response none (sendStep k s))
  | .stopped f => .fault f

/-- PACK (R140); the guards in the order of R203. -/
def beginPack (pkt : Nat) (sp : Bool) (len : Nat) (s : State) : Begun :=
  match handleKind pkt with
  | none => .ended (reject .noPacket (.status false) s)
  | some k =>
    if sp = false then .ended (reject .noSource (.status false) s)
    else
      match packStep k len (readSrc len s) s with
      | .error why => .ended (reject why (.status false) s)
      | .ok s' => .ended (finish (.status true) none s')

/-- SEND up to its first write (R145).  A stored size above 1024 has no rule (N19) and is reached by no run. -/
def beginSend (pkt : Nat) (s : State) : Begun :=
  match handleKind pkt with
  | none => .ended (reject .noPacket (.status false) s)
  | some k =>
    if Config.maxPayload < payloadSize (s.pkt k) then .stopped .payloadSizeOutOfRange else .framing k s

/-- `CRC16` (R124, R125). -/
def execCrc16 (sp : Bool) (len : Nat) (s : State) : Outcome := runWhole .noResult (beginCrc16 sp len s)

/-- `PACK` (R140 to R144). -/
def execPack (pkt : Nat) (sp : Bool) (len : Nat) (s : State) : Outcome :=
  runWhole .noResult (beginPack pkt sp len s)

/-- `SEND` (R145 to R147). -/
def execSend (pkt : Nat) (s : State) : Outcome := runWhole (.status true) (beginSend pkt s)

end Sys2Proof.Machine
end

