-- ==== Sys2Proof/Machine/Encoder.lean ====
section
/-! DEFINITION. The layout engine for typed records: `SENDDATA` and the six senders (spec/42_encoder_senders.md). -/

namespace Sys2Proof.Machine

/-- The SENDDATA steps after the handle and source guards (R170, R171): nothing for size 0 or a rejected PACK step,
else the packed buffer is to be sent. -/
def beginData (k : Kind) (size : Nat) (data : List Byte) (s : State) : Begun :=
  if size = 0 then .ended (reject .zeroSize .noResult s)
  else
    match packStep k size data s with
    | .error why => .ended (reject why .noResult s)
    | .ok s' => .framing k s'

/-- SENDDATA up to its first write (R170); the guards in the order of R203. -/
def beginSenddata (pkt : Nat) (sp : Bool) (len : Nat) (s : State) : Begun :=
  match handleKind pkt with
  | none => .ended (reject .noPacket .noResult s)
  | some k =>
    if sp = false then .ended (reject .noSource .noResult s) else beginData k len (readSrc len s) s

/-- `send_record` (R172): `r` is `REC`, whose bytes `[0 .. size)` hold the record. -/
def beginRecord (k : Kind) (size : Nat) (r : Mem) (s : State) : Begun :=
  beginData k size (readBytes r 0 size) { s with recBuf := some r }

/-- `REC` of a Date record (R88, R173). -/
def recDate (day month year : Word) : Mem :=
  write32 (write32 (write32 (Mem.write [] 0 (recordId .date)) 1 day) 5 month) 9 year

/-- `REC` of a Time record (R89, R174). -/
def recTime (hour : Byte) (minute second : Half) : Mem :=
  write16 (write16 (Mem.write (Mem.write [] 0 (recordId .time)) 1 hour) 2 minute) 4 second

/-- `REC` of an AdcSample record (R90, R175). -/
def recAdc (sampleCount : Word) (value : Half) : Mem :=
  write16 (write32 (Mem.write [] 0 (recordId .adcSample)) 1 sampleCount) 5 value

/-- `REC` of a TextMessage record (R91, R176). -/
def recText (text : List Byte) (length : Nat) : Mem :=
  writeBytes (write16 (Mem.write [] 0 (recordId .textMessage)) 1 (BitVec.ofNat 16 length)) 3 text

/-- `REC` of a ButtonState record (R92, R177). -/
def recButton (buttonId : Byte) (state : Half) : Mem :=
  write16 (Mem.write (Mem.write [] 0 (recordId .buttonState)) 1 buttonId) 2 state

/-- `REC` of a McuTemperature record (R93, R178). -/
def recTemp (value : Half) : Mem :=
  write16 (Mem.write [] 0 (recordId .mcuTemperature)) 1 value

/-- SEND_DATE up to its first write (R173). -/
def beginDate (day month year : Word) (s : State) : Begun := beginRecord .date 13 (recDate day month year) s

/-- SEND_TIME up to its first write (R174). -/
def beginTime (hour : Byte) (minute second : Half) (s : State) : Begun :=
  beginRecord .time 6 (recTime hour minute second) s

/-- SEND_ADC up to its first write (R175). -/
def beginAdc (sampleCount : Word) (value : Half) (s : State) : Begun :=
  beginRecord .adcSample 7 (recAdc sampleCount value) s

/-- SEND_TEXT up to its first write (R176, R179). -/
def beginText (sp : Bool) (len : Nat) (s : State) : Begun :=
  if sp = false then .ended (reject .noSource .noResult s)
  else
    beginRecord .textMessage (3 + clampText len) (recText (readSrc (clampText len) s) (clampText len)) s

/-- SEND_BUTTON up to its first write (R177). -/
def beginButton (buttonId : Byte) (state : Half) (s : State) : Begun :=
  beginRecord .buttonState 4 (recButton buttonId state) s

/-- SEND_TEMP up to its first write (R178). -/
def beginTemp (value : Half) (s : State) : Begun := beginRecord .mcuTemperature 3 (recTemp value) s

/-- `SENDDATA` (R170, R171). -/
def execSenddata (pkt : Nat) (sp : Bool) (len : Nat) (s : State) : Outcome :=
  runWhole .noResult (beginSenddata pkt sp len s)

/-- `SEND_DATE` (R173). -/
def execSendDate (day month year : Word) (s : State) : Outcome := runWhole .noResult (beginDate day month year s)

/-- `SEND_TIME` (R174). -/
def execSendTime (hour : Byte) (minute second : Half) (s : State) : Outcome :=
  runWhole .noResult (beginTime hour minute second s)

/-- `SEND_ADC` (R175). -/
def execSendAdc (sampleCount : Word) (value : Half) (s : State) : Outcome :=
  runWhole .noResult (beginAdc sampleCount value s)

/-- `SEND_TEXT` (R176, R179, R180). -/
def execSendText (sp : Bool) (len : Nat) (s : State) : Outcome := runWhole .noResult (beginText sp len s)

/-- `SEND_BUTTON` (R177). -/
def execSendButton (buttonId : Byte) (state : Half) (s : State) : Outcome :=
  runWhole .noResult (beginButton buttonId state s)

/-- `SEND_TEMP` (R178). -/
def execSendTemp (value : Half) (s : State) : Outcome := runWhole .noResult (beginTemp value s)

end Sys2Proof.Machine
end

