-- ==== Sys2Proof/Machine/Dispatch.lean ====
section
/-! DEFINITION. One arm per command (spec/30_encoding.md R97): each is one direct call of its meaning. -/

namespace Sys2Proof.Machine

def exec (i : Instr) (s : State) : Host.Outcome State Fault Refusal :=
  match i with
  -- spec/42_encoder_senders.md R173 to R178
  | .sendDate day month year => Sys2Proof.Machine.execSendDate day month year s
  | .sendTime hour minute second => Sys2Proof.Machine.execSendTime hour minute second s
  | .sendAdc sampleCount value => Sys2Proof.Machine.execSendAdc sampleCount value s
  | .sendText sp len => Sys2Proof.Machine.execSendText sp len s
  | .sendButton buttonId state => Sys2Proof.Machine.execSendButton buttonId state s
  | .sendTemp value => Sys2Proof.Machine.execSendTemp value s
  -- spec/40_crc16.md R124, R125
  | .crc16 sp len => Sys2Proof.Machine.execCrc16 sp len s
  -- spec/41_framer_pack_send.md R140, R145
  | .pack pkt sp len => Sys2Proof.Machine.execPack pkt sp len s
  | .send pkt => Sys2Proof.Machine.execSend pkt s
  -- spec/42_encoder_senders.md R170
  | .senddata pkt sp len => Sys2Proof.Machine.execSenddata pkt sp len s

end Sys2Proof.Machine
end

