-- ==== Sys2Proof/Machine/Sequencer.lean ====
section
/-! DEFINITION. The byte sequencer (spec/41_framer_pack_send.md R148, R149): the byte-by-byte refinement of the SEND
step, driven by `phase` and `idx`, that waits in place while the sink does not accept. -/

namespace Sys2Proof.Machine

/-- The Packet whose frame a command emits (R172): the handle's for SEND and SENDDATA, the kind's for a sender. -/
def frameKind : Instr → Option Kind
  | .sendDate _ _ _ => some .date
  | .sendTime _ _ _ => some .time
  | .sendAdc _ _ => some .adcSample
  | .sendText _ _ => some .textMessage
  | .sendButton _ _ => some .buttonState
  | .sendTemp _ => some .mcuTemperature
  | .crc16 _ _ => none
  | .pack _ _ _ => none
  | .send pkt => handleKind pkt
  | .senddata pkt _ _ => handleKind pkt

/-- Every command up to its first write. -/
def beginCommand (i : Instr) (s : State) : Begun :=
  match i with
  | .sendDate day month year => beginDate day month year s
  | .sendTime hour minute second => beginTime hour minute second s
  | .sendAdc sampleCount value => beginAdc sampleCount value s
  | .sendText sp len => beginText sp len s
  | .sendButton buttonId state => beginButton buttonId state s
  | .sendTemp value => beginTemp value s
  | .crc16 sp len => beginCrc16 sp len s
  | .pack pkt sp len => beginPack pkt sp len s
  | .send pkt => beginSend pkt s
  | .senddata pkt sp len => beginSenddata pkt sp len s

/-- The count of the write that is open in phase `ph` (R148). -/
def phaseCount (m : Mem) : Phase → Nat
  | .idle => 0
  | .prefixWrite => 6
  | .payloadWrite => payloadSize m
  | .checksumWrite => 2

/-- The buffer offset of byte 0 of the write that is open in phase `ph` (R148). -/
def phaseOffset : Phase → Nat
  | .idle => 0
  | .prefixWrite => 0
  | .payloadWrite => Config.offPayload
  | .checksumWrite => Config.offChecksum

/-- `tx_valid` while `PKT[k]` is emitted (R213): a byte of the open write is still to be handed over. -/
def txValid (k : Kind) (s : State) : Bool := decide (s.idx.toNat < phaseCount (s.pkt k) s.phase)

/-- `tx_data` while `PKT[k]` is emitted (R213): the byte at `idx` of the open write. -/
def txData (k : Kind) (s : State) : Byte := Mem.read (s.pkt k) (phaseOffset s.phase + s.idx.toNat)

/-- Opens a write by announcing its count (R148): `phase <- ph; idx <- 0`. -/
def openWrite (ph : Phase) (count : Nat) (s : State) : State :=
  { s with phase := ph, idx := 0, sink := s.sink ++ [{ count := count, bytes := [] }] }

/-- Adds a byte to the last write of the history. -/
def extendLast : List Write → Byte → List Write
  | [], _ => []
  | [w], b => [{ w with bytes := w.bytes ++ [b] }]
  | w :: w' :: rest, b => w :: extendLast (w' :: rest) b

/-- The sink accepts byte `b`: it joins the open write and `idx <- idx + 1` (R148). -/
def emitByte (b : Byte) (s : State) : State :=
  { s with sink := extendLast s.sink b, idx := s.idx + 1 }

/-- Offers byte `b` to the sink: while the sink does not accept, the sequencer waits in place (R149). -/
def offerByte (b : Byte) (s : State) : State :=
  match s.txReady with
  | [] => emitByte b s
  | true :: rest => emitByte b { s with txReady := rest }
  | false :: rest => { s with txReady := rest }

/-- One step inside a write of `count` bytes starting at buffer offset `off`: offer the byte at `idx`, or, when the
write is complete, go on to `after`. -/
def pumpWrite (m : Mem) (off count : Nat) (after s : State) : State :=
  if s.idx.toNat < count then offerByte (Mem.read m (off + s.idx.toNat)) s else after

/-- One step of the sequencer emitting `PKT[k]` for command `i` (R148). -/
def tickFrame (i : Instr) (k : Kind) (s : State) : Outcome :=
  let m := s.pkt k
  let n := payloadSize m
  if Config.maxPayload < n then .fault .payloadSizeOutOfRange
  else
    match s.phase with
    | .idle => .fault .noFrameInProgress
    | .prefixWrite => .next (pumpWrite m 0 Config.offPayload (openWrite .payloadWrite n s) s)
    | .payloadWrite => .next (pumpWrite m Config.offPayload n (openWrite .checksumWrite 2 s) s)
    | .checksumWrite =>
        .next (pumpWrite m Config.offChecksum 2
          (finish (frameResponse i) none { s with phase := .idle, idx := 0 }) s)

/-- One step of a command in progress. -/
def tick (s : State) : Outcome :=
  match s.current with
  | none => .fault .noFrameInProgress
  | some i =>
    match frameKind i with
    | none => .fault .noFrameInProgress
    | some k => tickFrame i k s

/-- Starts a command byte by byte: a command that emits a frame stops where write 1 is open (R148). -/
def execBytes (i : Instr) (s : State) : Outcome :=
  match beginCommand i s with
  | .ended s' => .next s'
  | .framing _ s' => .next (openWrite .prefixWrite Config.offPayload s')
  | .stopped f => .fault f

end Sys2Proof.Machine
end

