-- ==== Sys2Proof/Machine/Port.lean ====
section
/-! DEFINITION. What one step does with what the host shows: the command port (spec/30_encoding.md R80, R81, R99),
the inspection port (spec/10_state.md R37), reset (spec/70_reset_and_hazards.md R230, R231), and a command in
progress. -/

namespace Sys2Proof.Machine

/-- The host presents a command to an idle block (R81): it is accepted; a reserved encoding is a no-op without
result (R99, R100); any other runs. -/
def runCommand (run : Instr → State → Outcome) (c : Command) (rest : List HostEvent) (s : State) : Outcome :=
  match decode c.words with
  | .command i => run i (acceptCommand c (some i) rest s)
  | .reserved _ => .next (reject .reserved .noResult (acceptCommand c none rest s))

/-- The inspection port of an idle block (R37): byte `a` of `PKT[k]`, nothing else changes. -/
def inspectPort (k : BitVec 3) (a : BitVec 11) (rest : List HostEvent) (s : State) : Outcome :=
  match handleKind k.toNat with
  | none => .refused .inspectionOutsideContract
  | some kind =>
    if a.toNat < Config.pktBytes then
      .next { s with host := rest, inspected := s.inspected ++ [Mem.read (s.pkt kind) a.toNat] }
    else .refused .inspectionOutsideContract

/-- A step with `busy = 0`. -/
def idleStep (run : Instr → State → Outcome) (s : State) : Outcome :=
  match s.host with
  | [] => .next s
  | .idle :: rest => .next { s with host := rest }
  | .reset :: rest => .next (hostReset rest s)
  | .inspect k a :: rest => inspectPort k a rest s
  | .command c :: rest => runCommand run c rest s

/-- A step with `busy = 1`: no command is accepted (R81), inspection is refused (R241), reset abandons the command
(R231), and otherwise the sequencer goes on. -/
def busyStep (s : State) : Outcome :=
  match s.host with
  | [] => tick s
  | .idle :: rest => tick { s with host := rest }
  | .reset :: rest => .next (hostReset rest s)
  | .inspect _ _ :: _ => .refused .inspectionOutsideContract
  | .command _ :: _ => tick s

/-- One step, given how an accepted command is run. -/
def stepWith (run : Instr → State → Outcome) (s : State) : Outcome :=
  if s.busy then busyStep s else idleStep run s

/-- One step of the byte-level machine: an accepted command that emits a frame is left in mid-frame, and the steps
that follow emit it byte by byte (R148). -/
def byteStep (s : State) : Outcome := stepWith execBytes s

/-- `n` steps of the byte-level machine, stopping at the first fault or refusal. -/
def byteRun : Nat → State → Outcome
  | 0, s => .next s
  | n + 1, s =>
    match byteStep s with
    | .next s' => byteRun n s'
    | .fault f => .fault f
    | .refused r => .refused r

end Sys2Proof.Machine
end

