-- ==== Sys2Proof/Machine/Step.lean ====
section
/-! DEFINITION. The step (spec/20_memory.md R60: one command at a time, each to completion): an accepted command is
one step.  A state in mid-frame goes on byte by byte (spec/41_framer_pack_send.md R148). -/

namespace Sys2Proof.Machine

/-- One step of the block. -/
def step (s : State) : Host.Outcome State Fault Refusal := stepWith exec s

/-- The block at a command boundary with the unit `w` presented next on the command port, source buffer as it stands
(R80, R81; log entry 6). -/
def State.withFetchWord (s : State) (nbits w : Nat) : State :=
  { s with
    busy := false
    phase := .idle
    idx := 0
    current := none
    recBuf := none
    host := .command { words := wordsOfNat (w % 2 ^ nbits), src := s.src } :: s.host }

end Sys2Proof.Machine
end

