-- ==== Sys2Proof/Safety.lean ====
section
/-! DEFINITION. What a good state of the block is, in the terms claims use: the Packet invariants of
spec/10_state.md R23, the idle sequencer at a command boundary (R25, R26, R33), the frames on the wire
(spec/30_encoding.md R85, spec/41_framer_pack_send.md R146, R148), and the canonical form of every memory. -/

namespace Sys2Proof.Machine

/-- The six kinds. -/
def allKinds : List Kind := [.date, .time, .adcSample, .textMessage, .buttonState, .mcuTemperature]

/-- The used span of a buffer: offsets `[0 .. 6+N)` (glossary, R23). -/
def usedSpan (m : Mem) : List Byte := readBytes m 0 (Config.offPayload + payloadSize m)

/-- The frame a buffer holds (R85): prefix, used payload, checksum. -/
def frameBytes (m : Mem) : List Byte :=
  readBytes m 0 Config.offPayload ++ readBytes m Config.offPayload (payloadSize m) ++ readBytes m Config.offChecksum 2

/-- The marker is in place and the stored checksum is `crc16` of the used span (R23 (b), (c)). -/
def packed (m : Mem) : Bool :=
  Mem.read m 0 == Config.hdrByte0 && Mem.read m 1 == Config.hdrByte1
    && read16 m Config.offChecksum == crc16 (usedSpan m)

/-- A good buffer: canonical, inside its 1032 bytes, `payload_size` at most 1024 (R23 (a)), and either still as reset
left it or packed (R23 (b)). -/
def packetOk (m : Mem) : Bool :=
  Mem.wf m && Mem.within m Config.pktBytes && decide (payloadSize m ≤ Config.maxPayload) && (m.isEmpty || packed m)

/-- All six buffers are good. -/
def packetsOk (s : State) : Bool := allKinds.all (fun k => packetOk (s.pkt k))

/-- A source buffer is canonical and inside the 16-bit offsets of `SRC` (R30). -/
def sourceOk (m : Mem) : Bool := Mem.wf m && Mem.within m Config.srcBytes

/-- Every source buffer the host is going to present is good. -/
def hostOk (events : List HostEvent) : Bool :=
  events.all (fun e =>
    match e with
    | .command c => sourceOk c.src
    | .inspect _ _ => true
    | .idle => true
    | .reset => true)

/-- The three writes of one frame (R85, R146): 6 bytes, then as many as the length field says, then 2; and either the
frame of a buffer never packed (R147) or marker and checksum as R85 says. -/
def frameOk (w1 w2 w3 : Write) : Bool :=
  w1.count == 6 && w1.bytes.length == 6 && w2.count == w2.bytes.length && decide (w2.count ≤ Config.maxPayload)
    && w3.count == 2 && w3.bytes.length == 2
    && (half (w1.bytes.getD 4 0) (w1.bytes.getD 5 0)).toNat == w2.count
    && ((w1.bytes == List.replicate 6 0 && w3.bytes == List.replicate 2 0)
      || (w1.bytes.take 2 == [Config.hdrByte0, Config.hdrByte1] && w3.bytes == le16 (crc16 (w1.bytes ++ w2.bytes))))

/-- A write history that is a sequence of whole frames, none interleaved with another (R61). -/
def framesOk : List Write → Bool
  | [] => true
  | w1 :: w2 :: w3 :: rest => frameOk w1 w2 w3 && framesOk rest
  | _ :: _ => false

/-- The writes of the frame in flight when the sequencer is at `ph` and byte `i` (R35, R148). -/
def inFlight (m : Mem) (ph : Phase) (i : Nat) : List Write :=
  let w1 : Write := { count := 6, bytes := readBytes m 0 6 }
  let w2 : Write := { count := payloadSize m, bytes := readBytes m 6 (payloadSize m) }
  match ph with
  | .idle => []
  | .prefixWrite => [{ count := 6, bytes := readBytes m 0 i }]
  | .payloadWrite => [w1, { count := payloadSize m, bytes := readBytes m 6 i }]
  | .checksumWrite => [w1, w2, { count := 2, bytes := readBytes m Config.offChecksum i }]

/-- At a command boundary the sequencer is idle (R25), no command is held (R26), `REC` has no value (R33), and the
write history is whole frames. -/
def boundaryOk (s : State) : Bool :=
  s.phase == .idle && s.idx == 0 && s.current.isNone && s.recBuf.isNone && framesOk s.sink

/-- Inside a command the sequencer is emitting the held command's Packet and the history ends with what it has emitted
of the frame so far (R25, R148). -/
def midFrameOk (s : State) : Bool :=
  match s.current.bind frameKind with
  | none => false
  | some k =>
    let m := s.pkt k
    let part := inFlight m s.phase s.idx.toNat
    let done := s.sink.length - part.length
    s.phase != .idle && decide (s.idx.toNat ≤ phaseCount m s.phase)
      && framesOk (s.sink.take done) && s.sink.drop done == part

/-- The record in `REC`, if there is one, is canonical and inside its 1027 bytes (R33). -/
def recordOk (s : State) : Bool :=
  match s.recBuf with
  | none => true
  | some r => Mem.wf r && Mem.within r Config.recBytes

/-- The clock's bus is as wide as R6 asks. -/
def clockOk (s : State) : Bool := decide (Config.minClockWidth ≤ s.clockWidth)

/-- The invariant of the machine. -/
def State.inv (s : State) : Bool :=
  clockOk s && packetsOk s && sourceOk s.src && hostOk s.host && recordOk s && (if s.busy then midFrameOk s else boundaryOk s)

/-! ### What a command leaves, in the terms of the rules -/

/-- `DE AB ‖ le16(t) ‖ le16(n)`: write 1 of a frame with timestamp `t` and length `n` (R85). -/
def prefixBytes (t : Half) (n : Nat) : List Byte := [0xDE, 0xAB] ++ le16 t ++ le16 (BitVec.ofNat 16 n)

/-- `m'` is what a PACK of `payload` with timestamp `t` leaves of a buffer that was `m` (R142): the used span, the
checksum, and every byte it does not store to. -/
def PackedAs (m m' : Mem) (t : Half) (payload : List Byte) : Prop :=
  readBytes m' 0 (6 + payload.length) = prefixBytes t payload.length ++ payload ∧
  readBytes m' 1030 2 = le16 (crc16 (prefixBytes t payload.length ++ payload)) ∧
  ∀ a, (6 + payload.length ≤ a ∧ a < 1030) ∨ 1032 ≤ a → Mem.read m' a = Mem.read m a

/-- `t` is `s` after a command that packed `payload` into `PKT[k]`, sent nothing and answered `response`: the clock is
read once, the CRC register holds the checksum, and nothing else changes (R142). -/
def AfterPack (k : Kind) (payload : List Byte) (response : Response) (s t : State) : Prop :=
  ∃ m', PackedAs (s.pkt k) m' (trunc16 (clockRead s).1) payload ∧
    t = { s with
      pkts := s.pkts.set k m'
      crc := crc16 (prefixBytes (trunc16 (clockRead s).1) payload.length ++ payload)
      clock := (clockRead s).2.clock
      clockReads := s.clockReads + 1
      busy := false
      current := none
      recBuf := none
      reports := s.reports ++ [{ response := response, label := none }] }

/-- `t` is `s` after a command that packed `payload` into `PKT[k]`, sent that frame as three writes and answered
`response`; nothing else changes (R142, R145). -/
def AfterFrame (k : Kind) (payload : List Byte) (response : Response) (s t : State) : Prop :=
  ∃ m', PackedAs (s.pkt k) m' (trunc16 (clockRead s).1) payload ∧
    t = { s with
      pkts := s.pkts.set k m'
      crc := crc16 (prefixBytes (trunc16 (clockRead s).1) payload.length ++ payload)
      clock := (clockRead s).2.clock
      clockReads := s.clockReads + 1
      phase := .idle
      idx := 0
      sink := s.sink ++
        [{ count := 6, bytes := prefixBytes (trunc16 (clockRead s).1) payload.length },
         { count := payload.length, bytes := payload },
         { count := 2, bytes := le16 (crc16 (prefixBytes (trunc16 (clockRead s).1) payload.length ++ payload)) }]
      busy := false
      current := none
      recBuf := none
      reports := s.reports ++ [{ response := response, label := none }] }

/-- `s` after a command that was rejected for `why` and answered `response` (R202): the command has ended, and nothing
else has changed. -/
def afterReject (why : Reject) (response : Response) (s : State) : State :=
  { s with
    busy := false
    current := none
    recBuf := none
    reports := s.reports ++ [{ response := response, label := some why }] }

/-- The record a sender builds, with its kind (R88 to R93): the whole of the payload of its frame.  A command that
builds no record, and SEND_TEXT without a text (R176), have none. -/
def recordOf (i : Instr) (s : State) : Option (Kind × List Byte) :=
  match i with
  | .sendDate d m y => some (.date, [1] ++ le32 d ++ le32 m ++ le32 y)
  | .sendTime h m x => some (.time, [2, h] ++ le16 m ++ le16 x)
  | .sendAdc n v => some (.adcSample, [3] ++ le32 n ++ le16 v)
  | .sendText sp len =>
      if sp then
        some (.textMessage, [4] ++ le16 (BitVec.ofNat 16 (min len 1024)) ++ readBytes s.src 0 (min len 1024))
      else none
  | .sendButton b v => some (.buttonState, [5, b] ++ le16 v)
  | .sendTemp v => some (.mcuTemperature, [6] ++ le16 v)
  | .crc16 _ _ => none
  | .pack _ _ _ => none
  | .send _ => none
  | .senddata _ _ _ => none

/-- The handle that names the Packet of a kind (R21, R82). -/
def handleOf : Kind → Nat
  | .date => 1
  | .time => 2
  | .adcSample => 3
  | .textMessage => 4
  | .buttonState => 5
  | .mcuTemperature => 6

/-- The Packet a command may write (R51): the handle's for PACK and SENDDATA, the kind's for a sender. -/
def packsInto : Instr → Option Kind
  | .sendDate _ _ _ => some .date
  | .sendTime _ _ _ => some .time
  | .sendAdc _ _ => some .adcSample
  | .sendText _ _ => some .textMessage
  | .sendButton _ _ => some .buttonState
  | .sendTemp _ => some .mcuTemperature
  | .crc16 _ _ => none
  | .pack pkt _ _ => handleKind pkt
  | .send _ => none
  | .senddata pkt _ _ => handleKind pkt

/-- An outcome without the width of the clock's bus and what is left of its script. -/
def forgetClock : Outcome → Outcome
  | .next t => .next { t with clockWidth := 0, clock := [] }
  | .fault f => .fault f
  | .refused r => .refused r

end Sys2Proof.Machine
end

