-- ==== Sys2Proof/Certificates/Slice0/Obligations.lean ====
section
/-! DEFINITION. The statements for the provers, each from the numbered rules of spec/ its docstring names. -/

open Sys2Proof Sys2Proof.Machine

/-! ### Encoding (spec/30_encoding.md) -/

/-- R104 with R97, R98: the decoder reads from the canonical encoding of a well-formed command that command. -/
def Obligations.DecodeOfEncodeIsIdentity : Prop :=
  ∀ i : Instr, i.wellFormed = true → decode (encode i) = .command i

/-- R97: a word is the command of a row of the opcode table exactly when it matches that row, no word matches two
rows, and a word that matches none is reserved. -/
def Obligations.DecodeFollowsOpcodeTable : Prop :=
  ∀ w : CommandWords,
    (∀ row ∈ opcodeTable,
      (∃ i, decode w = .command i ∧ i.mnemonic = row.mnemonic) ↔ w.cw &&& 0xFFF00000 = row.matchBits) ∧
    (∀ row ∈ opcodeTable, ∀ row' ∈ opcodeTable,
      w.cw &&& 0xFFF00000 = row.matchBits → w.cw &&& 0xFFF00000 = row'.matchBits → row = row') ∧
    ((∃ why, decode w = .reserved why) ↔ ∀ row ∈ opcodeTable, w.cw &&& 0xFFF00000 ≠ row.matchBits)

/-- R82, R97, words written out bit by bit from the table: one for each of the ten commands, and the two kinds of
reserved word. -/
def Obligations.WordsWrittenOutDecode : Prop :=
  decode ⟨0b00000001000000000000000000000000, 10, 11, 2026⟩ = .command (.sendDate 10 11 2026) ∧
  decode ⟨0b00000010000000000000000000000000, 0x12345617, 0xABCD003B, 0xFFFF003A⟩
    = .command (.sendTime 0x17 0x003B 0x003A) ∧
  decode ⟨0b00000011000000000000000000000000, 0x01020304, 0x0ABC, 0⟩ = .command (.sendAdc 0x01020304 0x0ABC) ∧
  decode ⟨0b00000100000010000000000000000101, 0, 0, 0⟩ = .command (.sendText true 5) ∧
  decode ⟨0b00000101000000000000000000000000, 0x000001FF, 0x00012345, 0⟩ = .command (.sendButton 0xFF 0x2345) ∧
  decode ⟨0b00000110000000000000000000000000, 0x00010019, 0, 0⟩ = .command (.sendTemp 0x0019) ∧
  decode ⟨0b00010000000010000000000000001001, 0, 0, 0⟩ = .command (.crc16 true 9) ∧
  decode ⟨0b00010001000010110000000000000011, 0, 0, 0⟩ = .command (.pack 3 true 3) ∧
  decode ⟨0b00010010000000110000000000000000, 0, 0, 0⟩ = .command (.send 3) ∧
  decode ⟨0b00010011000011010000000000000100, 0, 0, 0⟩ = .command (.senddata 5 true 4) ∧
  decode ⟨0b00000000000000000000000000000000, 0, 0, 0⟩ = .reserved .reservedOp ∧
  decode ⟨0b00010010100000110000000000000000, 0, 0, 0⟩ = .reserved .reservedBits

/-- R83: the fields and operand words each command uses; every other field takes any value and the command is the
same; an operand narrower than its word is the word's low bits. -/
def Obligations.UnusedFieldsAreIgnored : Prop :=
  ∀ (sp : Bool) (pkt len : Nat) (a b c : Word), pkt < 8 → len < 65536 →
    decode ⟨commandWord 0x10 sp pkt len, a, b, c⟩ = .command (.crc16 sp len) ∧
    decode ⟨commandWord 0x11 sp pkt len, a, b, c⟩ = .command (.pack pkt sp len) ∧
    decode ⟨commandWord 0x12 sp pkt len, a, b, c⟩ = .command (.send pkt) ∧
    decode ⟨commandWord 0x13 sp pkt len, a, b, c⟩ = .command (.senddata pkt sp len) ∧
    decode ⟨commandWord 0x01 sp pkt len, a, b, c⟩ = .command (.sendDate a b c) ∧
    decode ⟨commandWord 0x02 sp pkt len, a, b, c⟩
      = .command (.sendTime (a.extractLsb' 0 8) (b.extractLsb' 0 16) (c.extractLsb' 0 16)) ∧
    decode ⟨commandWord 0x03 sp pkt len, a, b, c⟩ = .command (.sendAdc a (b.extractLsb' 0 16)) ∧
    decode ⟨commandWord 0x04 sp pkt len, a, b, c⟩ = .command (.sendText sp len) ∧
    decode ⟨commandWord 0x05 sp pkt len, a, b, c⟩
      = .command (.sendButton (a.extractLsb' 0 8) (b.extractLsb' 0 16)) ∧
    decode ⟨commandWord 0x06 sp pkt len, a, b, c⟩ = .command (.sendTemp (a.extractLsb' 0 16))

/-- R99, R100: a command with a reserved opcode or a reserved bit set is accepted by an idle block and is a no-op
whose response has no result; the step takes the command off the port and changes no state of the block. -/
def Obligations.ReservedEncodingsAreNoOps : Prop :=
  ∀ (s : State) (c : Command) (rest : List HostEvent),
    s.busy = false → s.host = .command c :: rest →
    (c.words.cw.extractLsb' 20 4 ≠ 0 ∨
      (c.words.cw.extractLsb' 24 8).toNat ∉ [0x01, 0x02, 0x03, 0x04, 0x05, 0x06, 0x10, 0x11, 0x12, 0x13]) →
    step s = .next { s with
      host := rest
      src := c.src
      current := none
      recBuf := none
      reports := s.reports ++ [{ response := .noResult, label := some .reserved }] }

/-! ### The step (spec/30_encoding.md R81) -/

/-- R81, R98: when an idle block is presented with words that decode to `i`, a step is `exec i` at the state in which
the command has been accepted: off the host's script, `busy = 1`, the command and its source buffer on the port. -/
def Obligations.StepRunsDecodedCommand : Prop :=
  ∀ (s : State) (c : Command) (rest : List HostEvent) (i : Instr),
    s.busy = false → s.host = .command c :: rest → decode c.words = .command i →
    step s = exec i { s with busy := true, current := some i, src := c.src, host := rest }

/-- R81, R26: while `busy = 1`, `cmd_ready` is 0 and a presented command stays on the port: it is not taken, the
command that runs is held until it ends, and only that command may respond. -/
def Obligations.BusyBlockAcceptsNoCommand : Prop :=
  ∀ (s t : State) (c : Command) (rest : List HostEvent),
    s.busy = true → s.host = .command c :: rest → step s = .next t →
    cmdReady s = false ∧ t.host = s.host ∧
      ((t.busy = true ∧ t.current = s.current ∧ t.reports = s.reports) ∨
        (cmdReady t = true ∧ ∃ r, t.reports = s.reports ++ [r]))

/-! ### CRC16 (spec/40_crc16.md) -/

/-- R123: empty input, streaming, the check string with its intermediate values, and the residue, which holds for the
little-endian order of the checksum bytes and not for the other.  Determinism (a) and the width (d) are the type's. -/
def Obligations.Crc16StreamsAndLeavesZeroResidue : Prop :=
  crc16 [] = 0xFFFF ∧
  (∀ a b : List Byte, crc16 (a ++ b) = b.foldl crcByte (crc16 a)) ∧
  (List.range 9).map (fun n => crc16 (([0x31, 0x32, 0x33, 0x34, 0x35, 0x36, 0x37, 0x38, 0x39] : List Byte).take (n + 1)))
    = [0x947E, 0xF595, 0x7A75, 0x30BA, 0xA471, 0x32E4, 0x9D73, 0x37DD, 0x4B37] ∧
  (∀ bs : List Byte, crc16 (bs ++ le16 (crc16 bs)) = 0x0000) ∧
  (∃ bs : List Byte, crc16 (bs ++ (le16 (crc16 bs)).reverse) ≠ 0x0000)

/-- R126: a 256-entry table indexed by `(crc xor b)[7:0]` computes the byte step for every register value and byte. -/
def Obligations.Crc16ByteStepHasTableForm : Prop :=
  ∃ table : List Half, table.length = 256 ∧
    ∀ (r : Half) (b : Byte),
      crcByte r b = (r >>> 8) ^^^ table.getD ((r ^^^ b.setWidth 16).extractLsb' 0 8).toNat 0

/-- R124: with a source, or with `len = 0`, CRC16 answers the checksum of `SRC[0 .. len)` and leaves it in `crc`;
no Packet buffer is touched, the clock is not read, nothing is sent. -/
def Obligations.Crc16AnswersChecksumOfSource : Prop :=
  ∀ (sp : Bool) (len : Nat) (s : State), len < 65536 → (sp = true ∨ len = 0) →
    exec (.crc16 sp len) s = .next { s with
      crc := crc16 (readBytes s.src 0 len)
      busy := false
      current := none
      recBuf := none
      reports := s.reports ++ [{ response := .checksum (crc16 (readBytes s.src 0 len)), label := none }] }

/-- R125: with an absent source and `len > 0` CRC16 is rejected, `crc` unchanged, the response `has_result = 1`,
`ok = 0`, `crc = 0`; with an absent source and `len = 0` it succeeds with 0xFFFF. -/
def Obligations.Crc16WithoutSourceIsRejected : Prop :=
  (∀ (len : Nat) (s : State), 0 < len →
    exec (.crc16 false len) s = .next (afterReject .noSource (.status false) s) ∧
    (afterReject .noSource (.status false) s).crc = s.crc) ∧
  ((Response.status false).hasResult = true ∧ (Response.status false).ok = false ∧ (Response.status false).crcBits = 0) ∧
  (∀ s : State, ∃ t, exec (.crc16 false 0) s = .next t ∧
    t.reports = s.reports ++ [{ response := .checksum 0xFFFF, label := none }])

/-! ### PACK (spec/41_framer_pack_send.md) -/

/-- R142: a PACK whose guards pass leaves the used span, the checksum and every other byte of its buffer as the rule
says; the clock is read once; no other state changes except the working register `crc`. -/
def Obligations.PackLaysOutPacket : Prop :=
  ∀ (pkt len : Nat) (k : Kind) (s : State), handleKind pkt = some k → len ≤ 1024 →
    ∃ t, exec (.pack pkt true len) s = .next t ∧ AfterPack k (readBytes s.src 0 len) (.status true) s t

/-- R141 with the labels of R203: a PACK with an absent handle, an absent source or a length above 1024 is a no-op
whose only trace is `ok = 0` in its response. -/
def Obligations.RejectedPackIsNoOp : Prop :=
  ∀ (pkt len : Nat) (sp : Bool) (s : State), (handleKind pkt = none ∨ sp = false ∨ 1024 < len) →
    exec (.pack pkt sp len) s = .next (afterReject
      (if handleKind pkt = none then .noPacket else if sp = false then .noSource else .tooLong) (.status false) s)

/-- R34: payload bytes at and beyond the packed length keep what was there; the checksum a PACK stores does not depend
on what its buffer held; and a SEND of two buffers that agree on the used span and the checksum emits the same writes. -/
def Obligations.StaleBytesStayAndAreNeverSent : Prop :=
  (∀ (pkt len : Nat) (k : Kind) (s : State), handleKind pkt = some k → len ≤ 1024 →
    ∃ t, exec (.pack pkt true len) s = .next t ∧
      ∀ a, 6 + len ≤ a → a < 1030 → Mem.read (t.pkt k) a = Mem.read (s.pkt k) a) ∧
  (∀ (pkt len : Nat) (k : Kind) (s : State) (other : Packets), handleKind pkt = some k → len ≤ 1024 →
    ∃ t t', exec (.pack pkt true len) s = .next t ∧ exec (.pack pkt true len) { s with pkts := other } = .next t' ∧
      readBytes (t.pkt k) 0 (6 + len) = readBytes (t'.pkt k) 0 (6 + len) ∧
      read16 (t.pkt k) 1030 = read16 (t'.pkt k) 1030) ∧
  (∀ (pkt : Nat) (k : Kind) (s s' : State), handleKind pkt = some k → payloadSize (s.pkt k) ≤ 1024 →
    readBytes (s.pkt k) 0 (6 + payloadSize (s.pkt k)) = readBytes (s'.pkt k) 0 (6 + payloadSize (s.pkt k)) →
    readBytes (s.pkt k) 1030 2 = readBytes (s'.pkt k) 1030 2 →
    ∃ t t' ws, exec (.send pkt) s = .next t ∧ exec (.send pkt) s' = .next t' ∧
      t.sink = s.sink ++ ws ∧ t'.sink = s'.sink ++ ws)

/-! ### SEND (spec/41_framer_pack_send.md) -/

/-- R146: SEND of a present handle whose `payload_size` is at most 1024 (R23 (a)) issues exactly three writes, also for
`N = 0`; their bytes in order are the `8 + N` bytes of the frame; no Packet buffer changes. -/
def Obligations.SendEmitsThreeWrites : Prop :=
  ∀ (pkt : Nat) (k : Kind) (s : State), handleKind pkt = some k → payloadSize (s.pkt k) ≤ 1024 →
    let n := payloadSize (s.pkt k)
    let ws : List Write :=
      [{ count := 6, bytes := readBytes (s.pkt k) 0 6 },
       { count := n, bytes := readBytes (s.pkt k) 6 n },
       { count := 2, bytes := readBytes (s.pkt k) 1030 2 }]
    exec (.send pkt) s = .next { s with
      phase := .idle
      idx := 0
      sink := s.sink ++ ws
      busy := false
      current := none
      recBuf := none
      reports := s.reports ++ [{ response := .status true, label := none }] } ∧
    sinkBytes ws = readBytes (s.pkt k) 0 (6 + n) ++ readBytes (s.pkt k) 1030 2 ∧
    (sinkBytes ws).length = 8 + n

/-- R101: handles 0 and 7 are absent; PACK, SEND and SENDDATA with them decode normally and then fail their guard, and
PACK and SEND report `ok = 0`. -/
def Obligations.AbsentHandlesAreRejected : Prop :=
  ∀ (pkt len : Nat) (sp : Bool) (s : State), (pkt = 0 ∨ pkt = 7) → len < 65536 →
    decode (encode (.pack pkt sp len)) = .command (.pack pkt sp len) ∧
    decode (encode (.send pkt)) = .command (.send pkt) ∧
    decode (encode (.senddata pkt sp len)) = .command (.senddata pkt sp len) ∧
    exec (.pack pkt sp len) s = .next (afterReject .noPacket (.status false) s) ∧
    exec (.send pkt) s = .next (afterReject .noPacket (.status false) s) ∧
    exec (.senddata pkt sp len) s = .next (afterReject .noPacket .noResult s)

/-- R147: SEND of a buffer as reset leaves it sends `00 00 00 00 00 00`, an empty write and `00 00`; the checksum of
six zero bytes would be 0x1B00. -/
def Obligations.SendOfUnpackedBufferSendsZeros : Prop :=
  (∀ (pkt : Nat) (k : Kind) (s : State), handleKind pkt = some k → (∀ a < 1032, Mem.read (s.pkt k) a = 0) →
    ∃ t, exec (.send pkt) s = .next t ∧ t.pkts = s.pkts ∧
      t.sink = s.sink ++
        [{ count := 6, bytes := [0, 0, 0, 0, 0, 0] }, { count := 0, bytes := [] }, { count := 2, bytes := [0, 0] }]) ∧
  crc16 [0, 0, 0, 0, 0, 0] = 0x1B00

/-- The model's choice (log entry 5; spec/91_not_in_source.md N19 gives no rule): a stored `payload_size` above 1024,
which R23 (a) rules out, stops SEND before anything is sent. -/
def Obligations.SendStopsOnOversizedStoredLength : Prop :=
  ∀ (pkt : Nat) (k : Kind) (s : State), handleKind pkt = some k → 1024 < payloadSize (s.pkt k) →
    exec (.send pkt) s = .fault .payloadSizeOutOfRange

/-- R64: a SEND after a PACK of the same handle sends exactly what that PACK wrote, whatever runs in between without
writing the Packet buffers, and a second SEND sends the same bytes again, timestamp included. -/
def Obligations.RepeatedSendRepeatsThePackedFrame : Prop :=
  ∀ (pkt len : Nat) (k : Kind) (s : State), handleKind pkt = some k → len ≤ 1024 →
    ∃ t, exec (.pack pkt true len) s = .next t ∧
      ∀ u : State, u.pkts = t.pkts →
        ∃ v w, exec (.send pkt) u = .next v ∧ exec (.send pkt) v = .next w ∧
          let data := readBytes s.src 0 len
          let pre := prefixBytes (trunc16 (clockRead s).1) len
          let ws : List Write :=
            [{ count := 6, bytes := pre }, { count := len, bytes := data }, { count := 2, bytes := le16 (crc16 (pre ++ data)) }]
          v.sink = u.sink ++ ws ∧ w.sink = v.sink ++ ws

/-! ### SENDDATA (spec/42_encoder_senders.md) -/

/-- R170: SENDDATA of a present handle and source with a size from 1 to 1024 packs the source bytes and sends them as
one frame, without a result. -/
def Obligations.SenddataPacksAndSends : Prop :=
  ∀ (pkt len : Nat) (k : Kind) (s : State), handleKind pkt = some k → 1 ≤ len → len ≤ 1024 →
    ∃ t, exec (.senddata pkt true len) s = .next t ∧ AfterFrame k (readBytes s.src 0 len) .noResult s t

/-- R170, R171 with the labels of R203: SENDDATA with an absent handle, an absent source, size 0 or a size above 1024 is
a no-op without a result; in particular the SEND step is skipped when the PACK step rejects. -/
def Obligations.RejectedSenddataIsNoOp : Prop :=
  ∀ (pkt len : Nat) (sp : Bool) (s : State), (handleKind pkt = none ∨ sp = false ∨ len = 0 ∨ 1024 < len) →
    exec (.senddata pkt sp len) s = .next (afterReject
      (if handleKind pkt = none then .noPacket else if sp = false then .noSource
        else if len = 0 then .zeroSize else .tooLong) .noResult s)

/-- R105: SENDDATA has the same effect on the Packets and the sink as PACK and then SEND with the same clock answer; and
each sender the same as SENDDATA of its record on its kind's handle. -/
def Obligations.CompositeCommandsEqualTheirParts : Prop :=
  (∀ (pkt len : Nat) (k : Kind) (s : State), handleKind pkt = some k → 1 ≤ len → len ≤ 1024 →
    ∃ t1 t2 t, exec (.pack pkt true len) s = .next t1 ∧ exec (.send pkt) t1 = .next t2 ∧
      exec (.senddata pkt true len) s = .next t ∧ t.pkts = t2.pkts ∧ t.sink = t2.sink) ∧
  (∀ (i : Instr) (k : Kind) (record : List Byte) (src : Mem) (s : State),
    recordOf i s = some (k, record) → record.length ≤ 1024 → readBytes src 0 record.length = record →
    ∃ t t', exec i s = .next t ∧ exec (.senddata (handleOf k) true record.length) { s with src := src } = .next t' ∧
      t.pkts = t'.pkts ∧ t.sink = t'.sink)

/-! ### The senders (spec/42_encoder_senders.md) -/

/-- R88: a Date record is 13 bytes, `01`, `le32(day)`, `le32(month)`, `le32(year)`; SEND_DATE sends it from `PKT[1]`,
whatever the operands (R173). -/
def Obligations.SendDateFramesDateRecord : Prop :=
  ∀ (day month year : Word) (s : State), ∃ t, exec (.sendDate day month year) s = .next t ∧
    AfterFrame .date ([0x01] ++ le32 day ++ le32 month ++ le32 year) .noResult s t

/-- R89: a Time record is 6 bytes, `02`, `hour`, `le16(minute)`, `le16(second)`; SEND_TIME sends it from `PKT[2]`. -/
def Obligations.SendTimeFramesTimeRecord : Prop :=
  ∀ (hour : Byte) (minute second : Half) (s : State), ∃ t, exec (.sendTime hour minute second) s = .next t ∧
    AfterFrame .time ([0x02, hour] ++ le16 minute ++ le16 second) .noResult s t

/-- R90: an AdcSample record is 7 bytes, `03`, `le32(sample_count)`, `le16(value)`; SEND_ADC sends it from `PKT[3]`. -/
def Obligations.SendAdcFramesAdcRecord : Prop :=
  ∀ (sampleCount : Word) (value : Half) (s : State), ∃ t, exec (.sendAdc sampleCount value) s = .next t ∧
    AfterFrame .adcSample ([0x03] ++ le32 sampleCount ++ le16 value) .noResult s t

/-- R92: a ButtonState record is 4 bytes, `05`, `button_id`, `le16(state)`; SEND_BUTTON sends it from `PKT[5]`. -/
def Obligations.SendButtonFramesButtonRecord : Prop :=
  ∀ (buttonId : Byte) (state : Half) (s : State), ∃ t, exec (.sendButton buttonId state) s = .next t ∧
    AfterFrame .buttonState ([0x05, buttonId] ++ le16 state) .noResult s t

/-- R93: a McuTemperature record is 3 bytes, `06`, `le16(value)`, the 16 bits unchanged; SEND_TEMP sends it from
`PKT[6]`. -/
def Obligations.SendTempFramesTemperatureRecord : Prop :=
  ∀ (value : Half) (s : State), ∃ t, exec (.sendTemp value) s = .next t ∧
    AfterFrame .mcuTemperature ([0x06] ++ le16 value) .noResult s t

/-- R179: with a source present, SEND_TEXT sends a frame of `payload_size = 3 + len` for `len` up to 1021, and for
every longer text, clamped to 1024 or not, it is a no-op: `PKT[4]` and `SINK` unchanged. -/
def Obligations.SendTextOutcomeByLength : Prop :=
  ∀ (len : Nat) (s : State),
    if len ≤ 1021 then
      ∃ t, exec (.sendText true len) s = .next t ∧
        AfterFrame .textMessage ([0x04] ++ le16 (BitVec.ofNat 16 len) ++ readBytes s.src 0 len) .noResult s t ∧
        payloadSize (t.pkt .textMessage) = 3 + len
    else exec (.sendText true len) s = .next (afterReject .tooLong .noResult s)

/-- R180: SEND_TEXT of length 0 with a source present sends a frame whose payload is `04 00 00`. -/
def Obligations.EmptyTextIsFramed : Prop :=
  ∀ s : State, ∃ t, exec (.sendText true 0) s = .next t ∧
    AfterFrame .textMessage [0x04, 0x00, 0x00] .noResult s t

/-- R176: SEND_TEXT with an absent text, of any length, is a no-op. -/
def Obligations.AbsentTextIsRejected : Prop :=
  ∀ (len : Nat) (s : State), exec (.sendText false len) s = .next (afterReject .noSource .noResult s)

/-- R183: after a sender that sends a frame, the payload read back by the record's layout gives the operands exactly,
and the buffer holds the marker and the checksum of its used span (R23 (b)). -/
def Obligations.RecordsReadBackAsSent : Prop :=
  (∀ (day month year : Word) (s : State), ∃ t, exec (.sendDate day month year) s = .next t ∧
    Mem.read (t.pkt .date) 6 = 1 ∧ read32 (t.pkt .date) 7 = day ∧ read32 (t.pkt .date) 11 = month ∧
    read32 (t.pkt .date) 15 = year ∧ packed (t.pkt .date) = true) ∧
  (∀ (hour : Byte) (minute second : Half) (s : State), ∃ t, exec (.sendTime hour minute second) s = .next t ∧
    Mem.read (t.pkt .time) 6 = 2 ∧ Mem.read (t.pkt .time) 7 = hour ∧ read16 (t.pkt .time) 8 = minute ∧
    read16 (t.pkt .time) 10 = second ∧ packed (t.pkt .time) = true) ∧
  (∀ (sampleCount : Word) (value : Half) (s : State), ∃ t, exec (.sendAdc sampleCount value) s = .next t ∧
    Mem.read (t.pkt .adcSample) 6 = 3 ∧ read32 (t.pkt .adcSample) 7 = sampleCount ∧
    read16 (t.pkt .adcSample) 11 = value ∧ packed (t.pkt .adcSample) = true) ∧
  (∀ (len : Nat) (s : State), len ≤ 1021 → ∃ t, exec (.sendText true len) s = .next t ∧
    Mem.read (t.pkt .textMessage) 6 = 4 ∧ (read16 (t.pkt .textMessage) 7).toNat = len ∧
    readBytes (t.pkt .textMessage) 9 len = readBytes s.src 0 len ∧ packed (t.pkt .textMessage) = true) ∧
  (∀ (buttonId : Byte) (state : Half) (s : State), ∃ t, exec (.sendButton buttonId state) s = .next t ∧
    Mem.read (t.pkt .buttonState) 6 = 5 ∧ Mem.read (t.pkt .buttonState) 7 = buttonId ∧
    read16 (t.pkt .buttonState) 8 = state ∧ packed (t.pkt .buttonState) = true) ∧
  (∀ (value : Half) (s : State), ∃ t, exec (.sendTemp value) s = .next t ∧
    Mem.read (t.pkt .mcuTemperature) 6 = 6 ∧ read16 (t.pkt .mcuTemperature) 7 = value ∧
    packed (t.pkt .mcuTemperature) = true)

/-! ### Memory (spec/20_memory.md) -/

/-- R58, R55, R56: a write changes only the bytes written, a multi-byte write stores bits 7:0 at the lowest offset, and
a read of the same width gives the value back. -/
def Obligations.WritesChangeOnlyTheirBytes : Prop :=
  (∀ (m : Mem) (a b : Nat) (v : Byte), Mem.read (Mem.write m a v) b = if b = a then v else Mem.read m b) ∧
  (∀ (m : Mem) (a : Nat) (v : Half),
    Mem.read (write16 m a v) a = v.extractLsb' 0 8 ∧ Mem.read (write16 m a v) (a + 1) = v.extractLsb' 8 8 ∧
    read16 (write16 m a v) a = v ∧ ∀ b, b < a ∨ a + 2 ≤ b → Mem.read (write16 m a v) b = Mem.read m b) ∧
  (∀ (m : Mem) (a : Nat) (v : Word),
    Mem.read (write32 m a v) a = v.extractLsb' 0 8 ∧ Mem.read (write32 m a v) (a + 3) = v.extractLsb' 24 8 ∧
    read32 (write32 m a v) a = v ∧ ∀ b, b < a ∨ a + 4 ≤ b → Mem.read (write32 m a v) b = Mem.read m b)

/-- The model's memory form (log entry 3): canonical memories that read alike are equal data. -/
def Obligations.CanonicalMemoriesThatReadAlikeAreEqual : Prop :=
  ∀ m m' : Mem, Mem.wf m = true → Mem.wf m' = true → (∀ a, Mem.read m a = Mem.read m' a) → m = m'

/-! ### Whole-machine rules -/

/-- R202: a command that is rejected, whichever it is and for whatever reason, changes nothing but what every end of a
command changes: no byte of a Packet, no write, no clock read, `crc`, `phase` and `idx` as they were. -/
def Obligations.RejectionChangesNothing : Prop :=
  ∀ (i : Instr) (s t : State) (response : Response) (why : Reject),
    exec i s = .next t → t.reports = s.reports ++ [{ response := response, label := some why }] →
    t = afterReject why response s ∧ wire t = wire s

/-- R84: every command that ends gives one response; PACK and SEND report `ok`, which is 1 exactly when they were not
rejected; CRC16 reports `ok` and, when it is 1, the checksum, which is what `crc` holds; the rest give no result; a
field without meaning is 0.  A reserved encoding's response is in `ReservedEncodingsAreNoOps`. -/
def Obligations.EveryCommandGivesOneResponse : Prop :=
  ∀ (i : Instr) (s t : State), exec i s = .next t →
    ∃ r : Report, t.reports = s.reports ++ [r] ∧
      if i.mnemonic = "PACK" ∨ i.mnemonic = "SEND" then
        r.response.hasResult = true ∧ (r.response.ok = true ↔ r.label = none) ∧ r.response.crcBits = 0
      else if i.mnemonic = "CRC16" then
        r.response.hasResult = true ∧ (r.response.ok = true ↔ r.label = none) ∧
          r.response.crcBits = (if r.label = none then t.crc else 0)
      else r.response.hasResult = false ∧ r.response.ok = false ∧ r.response.crcBits = 0

/-- R51, R182: the frame of every command: a Packet other than the one the command may pack, the source buffer and what
the environment shows are unchanged; CRC16, PACK and a rejected command send nothing, and every other appends three
writes; SEND leaves `crc` and the clock alone and CRC16 the clock; the clock is read once for a command that packed
and not otherwise. -/
def Obligations.CommandsTouchOnlyTheirSpaces : Prop :=
  ∀ (i : Instr) (s t : State) (r : Report), exec i s = .next t → t.reports = s.reports ++ [r] →
    (∀ k, packsInto i ≠ some k → t.pkt k = s.pkt k) ∧
    t.src = s.src ∧ t.host = s.host ∧ t.clockWidth = s.clockWidth ∧ t.txReady = s.txReady ∧ t.inspected = s.inspected ∧
    t.wireBeforeReset = s.wireBeforeReset ∧
    (if r.label = none ∧ (frameKind i).isSome then ∃ w1 w2 w3, t.sink = s.sink ++ [w1, w2, w3] else t.sink = s.sink) ∧
    (if r.label = none ∧ (packsInto i).isSome then t.clockReads = s.clockReads + 1 ∧ t.clock = s.clock.tail
      else t.clockReads = s.clockReads ∧ t.clock = s.clock) ∧
    (i.mnemonic = "SEND" → t.crc = s.crc)

/-- R210, R95: only bits 15:0 of the clock's answer matter to any command, any `CLOCK_WIDTH` of at least 16 gives the
same frames, and the timestamp wraps at 65536. -/
def Obligations.OnlyLowClockBitsMatter : Prop :=
  ∀ (i : Instr) (s : State) (width width' now now' : Nat) (rest : List Nat),
    16 ≤ width → 16 ≤ width' → now % 65536 = now' % 65536 →
    forgetClock (exec i { s with clockWidth := width, clock := now :: rest })
      = forgetClock (exec i { s with clockWidth := width', clock := now' :: rest })

/-- R6, R210: `CLOCK_WIDTH` is a parameter, 32 by default: no step of either machine changes it, each answer of the clock
is a value of that width, and a number that fits the bus is answered as it is.  That it is held in State, and that a
number too wide for the bus counts by its low bits, is the model's choice (log entry 19). -/
def Obligations.ClockWidthIsAParameter : Prop :=
  State.reset.clockWidth = 32 ∧
  (∀ s t : State, (step s = .next t ∨ byteStep s = .next t) → t.clockWidth = s.clockWidth) ∧
  (∀ s : State, (clockRead s).1 < 2 ^ s.clockWidth) ∧
  (∀ (s : State) (now : Nat) (rest : List Nat),
    s.clock = now :: rest → now < 2 ^ s.clockWidth → (clockRead s).1 = now)

/-- R201, R150: every well-formed command ends, with one response, in every state whose buffers have
`payload_size ≤ 1024`: no command traps.  That every command ends rests on the model's choice of log entry 9, the
fairness R212 names: the command-level machine's sink always accepts. -/
def Obligations.EveryCommandEnds : Prop :=
  ∀ (i : Instr) (s : State), i.wellFormed = true → (∀ k, payloadSize (s.pkt k) ≤ 1024) →
    ∃ t, exec i s = .next t ∧ t.busy = false ∧ t.reports.length = s.reports.length + 1

/-! ### The byte sequencer (spec/41_framer_pack_send.md R148, R149) -/

/-- R148: the byte sequencer is a refinement of the command-level rules.  From an idle good state that is presented
with one command, the byte-level machine ends in the state the command-level step gives, but for the sink's script of
readiness; it is busy at every step on the way, and takes at most 1036 steps and those the sink refuses.  That the run ends, and
its bound, rest on the model's choice of log entry 9 (the fairness R212 names): a sink with no script left accepts. -/
def Obligations.ByteSequencerRefinesCommands : Prop :=
  ∀ (s : State) (c : Command), s.inv = true → s.busy = false → s.host = [.command c] →
    ∃ t n u, step s = .next t ∧ byteRun n s = .next u ∧ 0 < n ∧ n ≤ 1036 + s.txReady.length ∧
      { u with txReady := [] } = { t with txReady := [] } ∧
      ∀ m, 0 < m → m < n → ∃ v, byteRun m s = .next v ∧ v.busy = true

/-- R149, R213: in mid-frame with a byte still to be handed over, also while a further command waits on the port, the
byte at `idx` joins the open write when the sink accepts it, and while the sink does not accept the sequencer waits in
place.  That a sink whose script has run out accepts is the model's choice (log entry 9). -/
def Obligations.SinkTakesOneByteOrSequencerWaits : Prop :=
  ∀ (s : State) (i : Instr) (k : Kind) (ws : List Write) (w : Write) (rest : List Bool),
    s.busy = true → (s.host = [] ∨ ∃ c more, s.host = .command c :: more) →
    s.current = some i → frameKind i = some k → s.phase ≠ .idle →
    payloadSize (s.pkt k) ≤ 1024 → txValid k s = true → s.sink = ws ++ [w] →
    ((s.txReady = true :: rest ∨ s.txReady = [] ∧ rest = []) → step s = .next { s with
      txReady := rest
      idx := s.idx + 1
      sink := ws ++ [{ count := w.count, bytes := w.bytes ++ [txData k s] }] }) ∧
    (s.txReady = false :: rest → step s = .next { s with txReady := rest })

/-- R148: when the open write has all its bytes, the sequencer opens the next of the three writes by announcing its
count, also when that count is 0; after the third it is idle again and the command ends with its response (R84). -/
def Obligations.SequencerOpensWritesInOrder : Prop :=
  ∀ (s : State) (i : Instr) (k : Kind),
    s.busy = true → (s.host = [] ∨ ∃ c more, s.host = .command c :: more) →
    s.current = some i → frameKind i = some k → payloadSize (s.pkt k) ≤ 1024 → txValid k s = false →
    (s.phase = .prefixWrite → step s = .next { s with
      phase := .payloadWrite
      idx := 0
      sink := s.sink ++ [{ count := payloadSize (s.pkt k), bytes := [] }] }) ∧
    (s.phase = .payloadWrite → step s = .next { s with
      phase := .checksumWrite
      idx := 0
      sink := s.sink ++ [{ count := 2, bytes := [] }] }) ∧
    (s.phase = .checksumWrite → step s = .next { s with
      phase := .idle
      idx := 0
      busy := false
      current := none
      recBuf := none
      reports := s.reports ++
        [{ response := if i.mnemonic = "SEND" then .status true else .noResult, label := none }] })

/-! ### Invariants (spec/10_state.md R23, R25, R26) -/

/-- R23, R25, R26, R61: every step keeps the invariant: Packets with `payload_size ≤ 1024` that are as reset left them
or carry the marker and the checksum of their used span, an idle sequencer at every command boundary, whole frames on
the wire, the canonical form of every memory, and a clock bus of at least 32 bits (R6). -/
def Obligations.StepKeepsInvariant : Prop :=
  ∀ s t : State, s.inv = true → step s = .next t → t.inv = true

/-- R148, R25: the byte-level machine keeps the same invariant, in mid-frame too, where the write history ends with
what the sequencer has emitted of its Packet so far. -/
def Obligations.ByteStepKeepsInvariant : Prop :=
  ∀ s t : State, s.inv = true → byteStep s = .next t → t.inv = true

/-- R36: the state after reset meets the invariant. -/
def Obligations.ResetMeetsInvariant : Prop := State.reset.inv = true

/-! ### Reset and inspection (spec/70_reset_and_hazards.md, spec/10_state.md) -/

/-- R36: the reset value of every piece of state. -/
def Obligations.ResetValues : Prop :=
  (∀ k a, Mem.read (State.reset.pkt k) a = 0x00) ∧ State.reset.crc = 0xFFFF ∧ State.reset.phase = .idle ∧
  State.reset.idx = 0 ∧ State.reset.busy = false ∧ cmdReady State.reset = true ∧ State.reset.sink = []

/-- R230, R231: asserting `rst`, between commands or inside one, gives every piece of state its reset value; a running
command is abandoned without a response; bytes already handed to the sink stay sent. -/
def Obligations.ResetAbandonsTheCommand : Prop :=
  ∀ (s : State) (rest : List HostEvent), s.host = .reset :: rest →
    ∃ t, step s = .next t ∧ (∀ k a, Mem.read (t.pkt k) a = 0x00) ∧ t.crc = 0xFFFF ∧ t.phase = .idle ∧ t.idx = 0 ∧
      t.busy = false ∧ cmdReady t = true ∧ t.current = none ∧ t.sink = [] ∧ t.reports = s.reports ∧
      wire t = wire s ∧ t.host = rest

/-- R37: while `busy = 0` the inspection port shows byte `a` of `PKT[k]` for `k` in 1 to 6 and `a` up to 1031 and
changes no state; any other read, and any read while `busy = 1`, is refused. -/
def Obligations.InspectionPortReadsOneByte : Prop :=
  ∀ (s : State) (k : BitVec 3) (a : BitVec 11) (rest : List HostEvent), s.host = .inspect k a :: rest →
    (∀ kind, s.busy = false → handleKind k.toNat = some kind → a.toNat ≤ 1031 →
      step s = .next { s with host := rest, inspected := s.inspected ++ [Mem.read (s.pkt kind) a.toNat] }) ∧
    (s.busy = true ∨ k.toNat = 0 ∨ k.toNat = 7 ∨ 1031 < a.toNat → step s = .refused .inspectionOutsideContract)
end

