-- ==== Sys2Proof/Laws/Mem.lean ====
section
/-! SUPPORT. What the memory operations do: read after write, spans of bytes, byte order, and the canonical form
that every operation keeps. -/

namespace Sys2Proof.Machine

/-! ### One byte -/

@[simp] theorem read_nil (a : Nat) : Mem.read [] a = 0 := rfl

theorem read_place (m : Mem) (a b : Nat) (v : Byte) :
    Mem.read (Mem.place m a v) b = if b = a then v else Mem.read m b := by
  induction m with
  | nil => simp [Mem.place, Mem.read]
  | cons c rest ih =>
    obtain ⟨x, w⟩ := c
    simp only [Mem.place]
    split
    · simp [Mem.read]
    · split
      · subst_vars
        by_cases h : b = x <;> simp [Mem.read, h]
      · rename_i hne
        simp only [Mem.read, ih]
        by_cases h : b = x
        · subst h; simp [Ne.symm hne]
        · simp [h]

theorem read_erase (m : Mem) (a b : Nat) :
    Mem.read (m.filter (fun c => c.1 ≠ a)) b = if b = a then 0 else Mem.read m b := by
  induction m with
  | nil => simp [Mem.read, unlistedByte]
  | cons c rest ih =>
    obtain ⟨x, w⟩ := c
    by_cases hx : x = a
    · subst hx
      simp only [ne_eq, not_true_eq_false, decide_false, Bool.false_eq_true, not_false_eq_true, List.filter_cons_of_neg]
      rw [ih]
      by_cases h : b = x <;> simp [Mem.read, h]
    · simp only [ne_eq, hx, not_false_eq_true, decide_true, List.filter_cons_of_pos]
      rw [Mem.read, ih, Mem.read]
      by_cases h : b = x
      · subst h; simp [hx]
      · simp [h]

/-- Read after write: the written byte at its own offset, every other byte as before (R58). -/
theorem read_write (m : Mem) (a b : Nat) (v : Byte) :
    Mem.read (Mem.write m a v) b = if b = a then v else Mem.read m b := by
  unfold Mem.write
  split
  · rename_i h; rw [read_erase]; simp [h, unlistedByte]
  · exact read_place m a b v

/-! ### Spans of bytes -/

@[simp] theorem readBytes_length (m : Mem) (a n : Nat) : (readBytes m a n).length = n := by
  induction n generalizing a with
  | zero => rfl
  | succ n ih => simp [readBytes, ih]

@[simp] theorem readBytes_zero (m : Mem) (a : Nat) : readBytes m a 0 = [] := rfl

theorem readBytes_get (m : Mem) (a n i : Nat) (h : i < n) : (readBytes m a n)[i]? = some (Mem.read m (a + i)) := by
  induction n generalizing a i with
  | zero => omega
  | succ n ih =>
    cases i with
    | zero => simp [readBytes]
    | succ i =>
      simp only [readBytes, List.getElem?_cons_succ]
      rw [ih (a + 1) i (by omega)]
      congr 2
      omega

/-- A span is two adjacent spans. -/
theorem readBytes_append (m : Mem) (a n k : Nat) :
    readBytes m a (n + k) = readBytes m a n ++ readBytes m (a + n) k := by
  induction n generalizing a with
  | zero => simp
  | succ n ih =>
    rw [show n + 1 + k = (n + k) + 1 by omega]
    simp only [readBytes, ih, List.cons_append]
    rw [show a + (n + 1) = a + 1 + n by omega]

/-- One byte more. -/
theorem readBytes_snoc (m : Mem) (a n : Nat) : readBytes m a (n + 1) = readBytes m a n ++ [Mem.read m (a + n)] := by
  rw [readBytes_append]; rfl

/-- Spans that agree byte for byte are equal. -/
theorem readBytes_congr {m m' : Mem} {a a' n : Nat}
    (h : ∀ i < n, Mem.read m (a + i) = Mem.read m' (a' + i)) : readBytes m a n = readBytes m' a' n := by
  apply List.ext_getElem?
  intro i
  by_cases hi : i < n
  · rw [readBytes_get m a n i hi, readBytes_get m' a' n i hi, h i hi]
  · rw [List.getElem?_eq_none (by simp; omega), List.getElem?_eq_none (by simp; omega)]

/-- Equal spans agree byte for byte. -/
theorem read_of_readBytes {m m' : Mem} {a n : Nat} (h : readBytes m a n = readBytes m' a n) {b : Nat}
    (hb : a ≤ b ∧ b < a + n) : Mem.read m b = Mem.read m' b := by
  have h1 := readBytes_get m a n (b - a) (by omega)
  have h2 := readBytes_get m' a n (b - a) (by omega)
  rw [h, h2] at h1
  rw [show a + (b - a) = b by omega] at h1
  exact (Option.some.inj h1).symm

/-- Read after a span is written: the bytes of the span inside it, every other byte as before (R58). -/
theorem read_writeBytes (m : Mem) (a : Nat) (bs : List Byte) (b : Nat) :
    Mem.read (writeBytes m a bs) b = if a ≤ b ∧ b < a + bs.length then bs.getD (b - a) 0 else Mem.read m b := by
  induction bs generalizing m a with
  | nil =>
    have : ¬ (a ≤ b ∧ b < a) := by omega
    simp [writeBytes, this]
  | cons v rest ih =>
    rw [writeBytes, ih, read_write]
    by_cases h : a = b
    · subst h
      simp [show ¬ (a + 1 ≤ a) by omega]
    · by_cases h2 : a + 1 ≤ b ∧ b < a + 1 + rest.length
      · have h3 : a ≤ b ∧ b < a + (v :: rest).length := by simp only [List.length_cons]; omega
        rw [if_pos h2, if_pos h3, show b - a = (b - (a + 1)) + 1 by omega]
        rfl
      · have h3 : ¬ (a ≤ b ∧ b < a + (v :: rest).length) := by simp only [List.length_cons]; omega
        rw [if_neg h2, if_neg h3, if_neg (Ne.symm h)]

theorem read_writeBytes_outside {m : Mem} {a : Nat} {bs : List Byte} {b : Nat} (h : b < a ∨ a + bs.length ≤ b) :
    Mem.read (writeBytes m a bs) b = Mem.read m b := by
  rw [read_writeBytes, if_neg (by omega)]

/-- A span outside the written one reads as before. -/
theorem readBytes_writeBytes_outside {m : Mem} {a : Nat} {bs : List Byte} {b n : Nat}
    (h : b + n ≤ a ∨ a + bs.length ≤ b) : readBytes (writeBytes m a bs) b n = readBytes m b n :=
  readBytes_congr fun i hi => read_writeBytes_outside (by omega)

/-- The written span reads as the bytes written. -/
theorem readBytes_writeBytes_same (m : Mem) (a : Nat) (bs : List Byte) :
    readBytes (writeBytes m a bs) a bs.length = bs := by
  apply List.ext_getElem?
  intro i
  by_cases hi : i < bs.length
  · rw [readBytes_get _ _ _ _ hi, read_writeBytes, if_pos (by omega), show a + i - a = i by omega]
    simp [List.getD, hi]
  · rw [List.getElem?_eq_none (by simp; omega), List.getElem?_eq_none (by omega)]

/-- `readBytes_writeBytes_same` where the length is known under another name. -/
theorem readBytes_writeBytes_len {m : Mem} {a n : Nat} {bs : List Byte} (h : bs.length = n) :
    readBytes (writeBytes m a bs) a n = bs := by
  subst h; exact readBytes_writeBytes_same m a bs

/-! ### Byte order -/

@[simp] theorem le16_length (v : Half) : (le16 v).length = 2 := rfl

@[simp] theorem le32_length (v : Word) : (le32 v).length = 4 := rfl

theorem half_le16 (v : Half) : half (v.extractLsb' 0 8) (v.extractLsb' 8 8) = v := by
  unfold half
  ext i hi
  simp only [BitVec.getElem_append, BitVec.getElem_extractLsb']
  split <;> simp [BitVec.getLsbD_eq_getElem, hi]
  rw [BitVec.getLsbD_eq_getElem (by omega)]
  congr 1
  omega

theorem le16_half (lo hi : Byte) : le16 (half lo hi) = [lo, hi] := by
  simp only [le16, half, List.cons.injEq, and_true]
  constructor
  · ext i hlt
    rw [BitVec.getElem_extractLsb', BitVec.getLsbD_append, if_pos (by omega), Nat.zero_add,
      BitVec.getLsbD_eq_getElem hlt]
  · ext i hlt
    rw [BitVec.getElem_extractLsb', BitVec.getLsbD_append, if_neg (by omega), Nat.add_sub_cancel_left,
      BitVec.getLsbD_eq_getElem hlt]

theorem word_le32 (v : Word) :
    word (v.extractLsb' 0 8) (v.extractLsb' 8 8) (v.extractLsb' 16 8) (v.extractLsb' 24 8) = v := by
  unfold word
  ext i hi
  simp only [BitVec.getElem_append, BitVec.getElem_extractLsb']
  split
  · rw [BitVec.getLsbD_eq_getElem (by omega)]; congr 1; omega
  · split
    · rw [BitVec.getLsbD_eq_getElem (by omega)]; congr 1; omega
    · split
      · rw [BitVec.getLsbD_eq_getElem (by omega)]; congr 1; omega
      · rw [BitVec.getLsbD_eq_getElem (by omega)]; congr 1; omega

/-- The 16-bit value whose two bytes a span holds (R55). -/
theorem read16_of_readBytes {m : Mem} {a : Nat} {v : Half} (h : readBytes m a 2 = le16 v) : read16 m a = v := by
  simp only [readBytes, le16, List.cons.injEq, and_true] at h
  rw [read16, h.1, h.2, half_le16]

theorem readBytes_read16 (m : Mem) (a : Nat) : readBytes m a 2 = le16 (read16 m a) := by
  rw [read16, le16_half]; rfl

/-- The 32-bit value whose four bytes a span holds (R55). -/
theorem read32_of_readBytes {m : Mem} {a : Nat} {v : Word} (h : readBytes m a 4 = le32 v) : read32 m a = v := by
  simp only [readBytes, le32, List.cons.injEq, and_true, Nat.add_assoc, Nat.reduceAdd] at h
  rw [read32, h.1, h.2.1, h.2.2.1, h.2.2.2, word_le32]

/-! ### The canonical form -/

theorem within_place {m : Mem} {a n : Nat} {v : Byte} (hm : Mem.within m n = true) (ha : a < n) :
    Mem.within (Mem.place m a v) n = true := by
  induction m with
  | nil => simp [Mem.place, Mem.within, ha]
  | cons c rest ih =>
    obtain ⟨x, w⟩ := c
    simp only [Mem.within, List.all_cons, Bool.and_eq_true, decide_eq_true_eq] at hm
    simp only [Mem.place]
    split
    · simp [Mem.within, ha, hm.1, hm.2]
    · split
      · simp [Mem.within, ha, hm.2]
      · have := ih hm.2
        simp only [Mem.within] at this
        simp [Mem.within, hm.1, this]

theorem within_write {m : Mem} {a n : Nat} {v : Byte} (hm : Mem.within m n = true) (ha : a < n) :
    Mem.within (Mem.write m a v) n = true := by
  unfold Mem.write
  split
  · simp only [Mem.within, List.all_eq_true, List.mem_filter] at *
    exact fun c hc => hm c hc.1
  · exact within_place hm ha

theorem above_place {m : Mem} {a x : Nat} {v : Byte} (hm : m.all (fun c => decide (x < c.1)) = true) (hx : x < a) :
    (Mem.place m a v).all (fun c => decide (x < c.1)) = true := by
  induction m with
  | nil => simp [Mem.place, hx]
  | cons c rest ih =>
    obtain ⟨y, w⟩ := c
    simp only [List.all_cons, Bool.and_eq_true, decide_eq_true_eq] at hm
    simp only [Mem.place]
    split
    · simp only [List.all_cons, Bool.and_eq_true, decide_eq_true_eq]; exact ⟨hx, hm⟩
    · split
      · simp only [List.all_cons, Bool.and_eq_true, decide_eq_true_eq]; exact ⟨hx, hm.2⟩
      · simp only [List.all_cons, Bool.and_eq_true, decide_eq_true_eq]; exact ⟨hm.1, ih hm.2⟩

theorem wf_cons {a : Nat} {v : Byte} {m : Mem} :
    Mem.wf ((a, v) :: m) = true ↔ v ≠ 0 ∧ m.all (fun c => decide (a < c.1)) = true ∧ Mem.wf m = true := by
  simp [Mem.wf, unlistedByte, and_assoc]

theorem wf_place {m : Mem} {a : Nat} {v : Byte} (hv : v ≠ 0) (hm : Mem.wf m = true) :
    Mem.wf (Mem.place m a v) = true := by
  induction m with
  | nil => exact wf_cons.2 ⟨hv, rfl, rfl⟩
  | cons c rest ih =>
    obtain ⟨x, w⟩ := c
    obtain ⟨hw, hall, hrest⟩ := wf_cons.1 hm
    simp only [Mem.place]
    split
    · rename_i hlt
      refine wf_cons.2 ⟨hv, ?_, hm⟩
      simp only [List.all_cons, Bool.and_eq_true, decide_eq_true_eq, List.all_eq_true] at hall ⊢
      exact ⟨hlt, fun c hc => Nat.lt_trans hlt (hall c hc)⟩
    · split
      · rename_i heq; subst heq
        exact wf_cons.2 ⟨hv, hall, hrest⟩
      · rename_i h1 h2
        exact wf_cons.2 ⟨hw, above_place hall (by omega), ih hrest⟩

theorem wf_erase {m : Mem} {a : Nat} (hm : Mem.wf m = true) : Mem.wf (m.filter (fun c => c.1 ≠ a)) = true := by
  induction m with
  | nil => rfl
  | cons c rest ih =>
    obtain ⟨x, w⟩ := c
    obtain ⟨hw, hall, hrest⟩ := wf_cons.1 hm
    by_cases hx : x = a
    · simp only [ne_eq, hx, not_true_eq_false, decide_false, Bool.false_eq_true, not_false_eq_true,
        List.filter_cons_of_neg]
      exact ih hrest
    · simp only [ne_eq, hx, not_false_eq_true, decide_true, List.filter_cons_of_pos]
      refine wf_cons.2 ⟨hw, ?_, ih hrest⟩
      simp only [List.all_eq_true, List.mem_filter] at hall ⊢
      exact fun c hc => hall c hc.1

/-- A write keeps the canonical form. -/
theorem wf_write {m : Mem} {a : Nat} {v : Byte} (hm : Mem.wf m = true) : Mem.wf (Mem.write m a v) = true := by
  unfold Mem.write
  split
  · exact wf_erase hm
  · rename_i hv; exact wf_place hv hm

theorem wf_writeBytes {m : Mem} {a : Nat} {bs : List Byte} (hm : Mem.wf m = true) :
    Mem.wf (writeBytes m a bs) = true := by
  induction bs generalizing m a with
  | nil => exact hm
  | cons b rest ih => exact ih (wf_write hm)

theorem within_writeBytes {m : Mem} {a n : Nat} {bs : List Byte} (hm : Mem.within m n = true)
    (ha : a + bs.length ≤ n) : Mem.within (writeBytes m a bs) n = true := by
  induction bs generalizing m a with
  | nil => exact hm
  | cons b rest ih =>
    simp only [List.length_cons] at ha
    exact ih (within_write hm (by omega)) (by omega)

/-- An offset below every listed one is not listed. -/
theorem read_below {m : Mem} {a : Nat} (h : m.all (fun c => decide (a < c.1)) = true) : Mem.read m a = 0 := by
  induction m with
  | nil => rfl
  | cons c rest ih =>
    simp only [List.all_cons, Bool.and_eq_true, decide_eq_true_eq] at h
    rw [Mem.read, if_neg (by omega), ih h.2]

end Sys2Proof.Machine
end

