-- ==== Sys2Proof/Laws/State.lean ====
section
/-! SUPPORT. One lemma per field per named update of the state, so that no later proof unfolds an update. -/

namespace Sys2Proof.Machine

/-! ### Packets -/

@[simp] theorem Packets.get_set_same (p : Packets) (k : Kind) (m : Mem) : (p.set k m).get k = m := by
  cases k <;> rfl

theorem Packets.get_set_other (p : Packets) (k j : Kind) (m : Mem) (h : j ≠ k) : (p.set k m).get j = p.get j := by
  cases k <;> cases j <;> first | rfl | exact absurd rfl h

@[simp] theorem Packets.set_set (p : Packets) (k : Kind) (m m' : Mem) : (p.set k m).set k m' = p.set k m' := by
  cases k <;> rfl

@[simp] theorem Packets.set_get (p : Packets) (k : Kind) : p.set k (p.get k) = p := by
  cases k <;> rfl

@[simp] theorem Packets.get_zero (k : Kind) : Packets.zero.get k = [] := by
  cases k <;> rfl

@[simp] theorem pkt_setPkt_same (s : State) (k : Kind) (m : Mem) : (s.setPkt k m).pkt k = m :=
  Packets.get_set_same s.pkts k m

theorem pkt_setPkt_other (s : State) (k j : Kind) (m : Mem) (h : j ≠ k) : (s.setPkt k m).pkt j = s.pkt j :=
  Packets.get_set_other s.pkts k j m h

@[simp] theorem pkt_writePkt_same (s : State) (k : Kind) (a : Nat) (bs : List Byte) :
    (writePkt k a bs s).pkt k = writeBytes (s.pkt k) a bs :=
  pkt_setPkt_same s k _

theorem pkt_writePkt_other (s : State) (k j : Kind) (a : Nat) (bs : List Byte) (h : j ≠ k) :
    (writePkt k a bs s).pkt j = s.pkt j :=
  pkt_setPkt_other s k j _ h

/-- Two states with the same buffers show the same Packet. -/
theorem pkt_congr {s t : State} (h : s.pkts = t.pkts) (k : Kind) : s.pkt k = t.pkt k := by
  rw [State.pkt, State.pkt, h]

/-! ### setPkt -/

@[simp] theorem pkts_setPkt (s : State) (k : Kind) (m : Mem) : (s.setPkt k m).pkts = s.pkts.set k m := rfl

@[simp] theorem crc_setPkt (s : State) (k : Kind) (m : Mem) : (s.setPkt k m).crc = s.crc := rfl

@[simp] theorem phase_setPkt (s : State) (k : Kind) (m : Mem) : (s.setPkt k m).phase = s.phase := rfl

@[simp] theorem idx_setPkt (s : State) (k : Kind) (m : Mem) : (s.setPkt k m).idx = s.idx := rfl

@[simp] theorem busy_setPkt (s : State) (k : Kind) (m : Mem) : (s.setPkt k m).busy = s.busy := rfl

@[simp] theorem recBuf_setPkt (s : State) (k : Kind) (m : Mem) : (s.setPkt k m).recBuf = s.recBuf := rfl

@[simp] theorem sink_setPkt (s : State) (k : Kind) (m : Mem) : (s.setPkt k m).sink = s.sink := rfl

@[simp] theorem reports_setPkt (s : State) (k : Kind) (m : Mem) : (s.setPkt k m).reports = s.reports := rfl

@[simp] theorem inspected_setPkt (s : State) (k : Kind) (m : Mem) : (s.setPkt k m).inspected = s.inspected := rfl

@[simp] theorem wireBeforeReset_setPkt (s : State) (k : Kind) (m : Mem) :
    (s.setPkt k m).wireBeforeReset = s.wireBeforeReset := rfl

@[simp] theorem current_setPkt (s : State) (k : Kind) (m : Mem) : (s.setPkt k m).current = s.current := rfl

@[simp] theorem src_setPkt (s : State) (k : Kind) (m : Mem) : (s.setPkt k m).src = s.src := rfl

@[simp] theorem host_setPkt (s : State) (k : Kind) (m : Mem) : (s.setPkt k m).host = s.host := rfl

@[simp] theorem clock_setPkt (s : State) (k : Kind) (m : Mem) : (s.setPkt k m).clock = s.clock := rfl

@[simp] theorem clockWidth_setPkt (s : State) (k : Kind) (m : Mem) :
    (s.setPkt k m).clockWidth = s.clockWidth := rfl

@[simp] theorem clockReads_setPkt (s : State) (k : Kind) (m : Mem) :
    (s.setPkt k m).clockReads = s.clockReads := rfl

@[simp] theorem txReady_setPkt (s : State) (k : Kind) (m : Mem) : (s.setPkt k m).txReady = s.txReady := rfl

/-! ### writePkt -/

@[simp] theorem pkts_writePkt (s : State) (k : Kind) (a : Nat) (bs : List Byte) :
    (writePkt k a bs s).pkts = s.pkts.set k (writeBytes (s.pkt k) a bs) := rfl

@[simp] theorem crc_writePkt (s : State) (k : Kind) (a : Nat) (bs : List Byte) :
    (writePkt k a bs s).crc = s.crc := rfl

@[simp] theorem phase_writePkt (s : State) (k : Kind) (a : Nat) (bs : List Byte) :
    (writePkt k a bs s).phase = s.phase := rfl

@[simp] theorem idx_writePkt (s : State) (k : Kind) (a : Nat) (bs : List Byte) :
    (writePkt k a bs s).idx = s.idx := rfl

@[simp] theorem busy_writePkt (s : State) (k : Kind) (a : Nat) (bs : List Byte) :
    (writePkt k a bs s).busy = s.busy := rfl

@[simp] theorem recBuf_writePkt (s : State) (k : Kind) (a : Nat) (bs : List Byte) :
    (writePkt k a bs s).recBuf = s.recBuf := rfl

@[simp] theorem sink_writePkt (s : State) (k : Kind) (a : Nat) (bs : List Byte) :
    (writePkt k a bs s).sink = s.sink := rfl

@[simp] theorem reports_writePkt (s : State) (k : Kind) (a : Nat) (bs : List Byte) :
    (writePkt k a bs s).reports = s.reports := rfl

@[simp] theorem inspected_writePkt (s : State) (k : Kind) (a : Nat) (bs : List Byte) :
    (writePkt k a bs s).inspected = s.inspected := rfl

@[simp] theorem wireBeforeReset_writePkt (s : State) (k : Kind) (a : Nat) (bs : List Byte) :
    (writePkt k a bs s).wireBeforeReset = s.wireBeforeReset := rfl

@[simp] theorem current_writePkt (s : State) (k : Kind) (a : Nat) (bs : List Byte) :
    (writePkt k a bs s).current = s.current := rfl

@[simp] theorem src_writePkt (s : State) (k : Kind) (a : Nat) (bs : List Byte) :
    (writePkt k a bs s).src = s.src := rfl

@[simp] theorem host_writePkt (s : State) (k : Kind) (a : Nat) (bs : List Byte) :
    (writePkt k a bs s).host = s.host := rfl

@[simp] theorem clock_writePkt (s : State) (k : Kind) (a : Nat) (bs : List Byte) :
    (writePkt k a bs s).clock = s.clock := rfl

@[simp] theorem clockWidth_writePkt (s : State) (k : Kind) (a : Nat) (bs : List Byte) :
    (writePkt k a bs s).clockWidth = s.clockWidth := rfl

@[simp] theorem clockReads_writePkt (s : State) (k : Kind) (a : Nat) (bs : List Byte) :
    (writePkt k a bs s).clockReads = s.clockReads := rfl

@[simp] theorem txReady_writePkt (s : State) (k : Kind) (a : Nat) (bs : List Byte) :
    (writePkt k a bs s).txReady = s.txReady := rfl

/-! ### sinkWrite -/

@[simp] theorem pkts_sinkWrite (s : State) (bs : List Byte) : (sinkWrite bs s).pkts = s.pkts := rfl

@[simp] theorem crc_sinkWrite (s : State) (bs : List Byte) : (sinkWrite bs s).crc = s.crc := rfl

@[simp] theorem phase_sinkWrite (s : State) (bs : List Byte) : (sinkWrite bs s).phase = s.phase := rfl

@[simp] theorem idx_sinkWrite (s : State) (bs : List Byte) : (sinkWrite bs s).idx = s.idx := rfl

@[simp] theorem busy_sinkWrite (s : State) (bs : List Byte) : (sinkWrite bs s).busy = s.busy := rfl

@[simp] theorem recBuf_sinkWrite (s : State) (bs : List Byte) : (sinkWrite bs s).recBuf = s.recBuf := rfl

@[simp] theorem sink_sinkWrite (s : State) (bs : List Byte) :
    (sinkWrite bs s).sink = s.sink ++ [{ count := bs.length, bytes := bs }] := rfl

@[simp] theorem reports_sinkWrite (s : State) (bs : List Byte) : (sinkWrite bs s).reports = s.reports := rfl

@[simp] theorem inspected_sinkWrite (s : State) (bs : List Byte) : (sinkWrite bs s).inspected = s.inspected := rfl

@[simp] theorem wireBeforeReset_sinkWrite (s : State) (bs : List Byte) :
    (sinkWrite bs s).wireBeforeReset = s.wireBeforeReset := rfl

@[simp] theorem current_sinkWrite (s : State) (bs : List Byte) : (sinkWrite bs s).current = s.current := rfl

@[simp] theorem src_sinkWrite (s : State) (bs : List Byte) : (sinkWrite bs s).src = s.src := rfl

@[simp] theorem host_sinkWrite (s : State) (bs : List Byte) : (sinkWrite bs s).host = s.host := rfl

@[simp] theorem clock_sinkWrite (s : State) (bs : List Byte) : (sinkWrite bs s).clock = s.clock := rfl

@[simp] theorem clockWidth_sinkWrite (s : State) (bs : List Byte) :
    (sinkWrite bs s).clockWidth = s.clockWidth := rfl

@[simp] theorem clockReads_sinkWrite (s : State) (bs : List Byte) :
    (sinkWrite bs s).clockReads = s.clockReads := rfl

@[simp] theorem txReady_sinkWrite (s : State) (bs : List Byte) : (sinkWrite bs s).txReady = s.txReady := rfl

/-! ### acceptCommand -/

@[simp] theorem pkts_acceptCommand (s : State) (c : Command) (i : Option Instr) (rest : List HostEvent) :
    (acceptCommand c i rest s).pkts = s.pkts := rfl

@[simp] theorem crc_acceptCommand (s : State) (c : Command) (i : Option Instr) (rest : List HostEvent) :
    (acceptCommand c i rest s).crc = s.crc := rfl

@[simp] theorem phase_acceptCommand (s : State) (c : Command) (i : Option Instr) (rest : List HostEvent) :
    (acceptCommand c i rest s).phase = s.phase := rfl

@[simp] theorem idx_acceptCommand (s : State) (c : Command) (i : Option Instr) (rest : List HostEvent) :
    (acceptCommand c i rest s).idx = s.idx := rfl

@[simp] theorem busy_acceptCommand (s : State) (c : Command) (i : Option Instr) (rest : List HostEvent) :
    (acceptCommand c i rest s).busy = true := rfl

@[simp] theorem recBuf_acceptCommand (s : State) (c : Command) (i : Option Instr) (rest : List HostEvent) :
    (acceptCommand c i rest s).recBuf = s.recBuf := rfl

@[simp] theorem sink_acceptCommand (s : State) (c : Command) (i : Option Instr) (rest : List HostEvent) :
    (acceptCommand c i rest s).sink = s.sink := rfl

@[simp] theorem reports_acceptCommand (s : State) (c : Command) (i : Option Instr) (rest : List HostEvent) :
    (acceptCommand c i rest s).reports = s.reports := rfl

@[simp] theorem inspected_acceptCommand (s : State) (c : Command) (i : Option Instr) (rest : List HostEvent) :
    (acceptCommand c i rest s).inspected = s.inspected := rfl

@[simp] theorem wireBeforeReset_acceptCommand (s : State) (c : Command) (i : Option Instr) (rest : List HostEvent) :
    (acceptCommand c i rest s).wireBeforeReset = s.wireBeforeReset := rfl

@[simp] theorem current_acceptCommand (s : State) (c : Command) (i : Option Instr) (rest : List HostEvent) :
    (acceptCommand c i rest s).current = i := rfl

@[simp] theorem src_acceptCommand (s : State) (c : Command) (i : Option Instr) (rest : List HostEvent) :
    (acceptCommand c i rest s).src = c.src := rfl

@[simp] theorem host_acceptCommand (s : State) (c : Command) (i : Option Instr) (rest : List HostEvent) :
    (acceptCommand c i rest s).host = rest := rfl

@[simp] theorem clock_acceptCommand (s : State) (c : Command) (i : Option Instr) (rest : List HostEvent) :
    (acceptCommand c i rest s).clock = s.clock := rfl

@[simp] theorem clockWidth_acceptCommand (s : State) (c : Command) (i : Option Instr) (rest : List HostEvent) :
    (acceptCommand c i rest s).clockWidth = s.clockWidth := rfl

@[simp] theorem clockReads_acceptCommand (s : State) (c : Command) (i : Option Instr) (rest : List HostEvent) :
    (acceptCommand c i rest s).clockReads = s.clockReads := rfl

@[simp] theorem txReady_acceptCommand (s : State) (c : Command) (i : Option Instr) (rest : List HostEvent) :
    (acceptCommand c i rest s).txReady = s.txReady := rfl

/-! ### finish -/

@[simp] theorem pkts_finish (s : State) (r : Response) (l : Option Reject) : (finish r l s).pkts = s.pkts := rfl

@[simp] theorem crc_finish (s : State) (r : Response) (l : Option Reject) : (finish r l s).crc = s.crc := rfl

@[simp] theorem phase_finish (s : State) (r : Response) (l : Option Reject) : (finish r l s).phase = s.phase := rfl

@[simp] theorem idx_finish (s : State) (r : Response) (l : Option Reject) : (finish r l s).idx = s.idx := rfl

@[simp] theorem busy_finish (s : State) (r : Response) (l : Option Reject) : (finish r l s).busy = false := rfl

@[simp] theorem recBuf_finish (s : State) (r : Response) (l : Option Reject) : (finish r l s).recBuf = none := rfl

@[simp] theorem sink_finish (s : State) (r : Response) (l : Option Reject) : (finish r l s).sink = s.sink := rfl

@[simp] theorem reports_finish (s : State) (r : Response) (l : Option Reject) :
    (finish r l s).reports = s.reports ++ [{ response := r, label := l }] := rfl

@[simp] theorem inspected_finish (s : State) (r : Response) (l : Option Reject) :
    (finish r l s).inspected = s.inspected := rfl

@[simp] theorem wireBeforeReset_finish (s : State) (r : Response) (l : Option Reject) :
    (finish r l s).wireBeforeReset = s.wireBeforeReset := rfl

@[simp] theorem current_finish (s : State) (r : Response) (l : Option Reject) :
    (finish r l s).current = none := rfl

@[simp] theorem src_finish (s : State) (r : Response) (l : Option Reject) : (finish r l s).src = s.src := rfl

@[simp] theorem host_finish (s : State) (r : Response) (l : Option Reject) : (finish r l s).host = s.host := rfl

@[simp] theorem clock_finish (s : State) (r : Response) (l : Option Reject) : (finish r l s).clock = s.clock := rfl

@[simp] theorem clockWidth_finish (s : State) (r : Response) (l : Option Reject) :
    (finish r l s).clockWidth = s.clockWidth := rfl

@[simp] theorem clockReads_finish (s : State) (r : Response) (l : Option Reject) :
    (finish r l s).clockReads = s.clockReads := rfl

@[simp] theorem txReady_finish (s : State) (r : Response) (l : Option Reject) :
    (finish r l s).txReady = s.txReady := rfl

/-! ### reject -/

@[simp] theorem pkts_reject (s : State) (why : Reject) (r : Response) : (reject why r s).pkts = s.pkts := rfl

@[simp] theorem crc_reject (s : State) (why : Reject) (r : Response) : (reject why r s).crc = s.crc := rfl

@[simp] theorem phase_reject (s : State) (why : Reject) (r : Response) : (reject why r s).phase = s.phase := rfl

@[simp] theorem idx_reject (s : State) (why : Reject) (r : Response) : (reject why r s).idx = s.idx := rfl

@[simp] theorem busy_reject (s : State) (why : Reject) (r : Response) : (reject why r s).busy = false := rfl

@[simp] theorem recBuf_reject (s : State) (why : Reject) (r : Response) : (reject why r s).recBuf = none := rfl

@[simp] theorem sink_reject (s : State) (why : Reject) (r : Response) : (reject why r s).sink = s.sink := rfl

@[simp] theorem reports_reject (s : State) (why : Reject) (r : Response) :
    (reject why r s).reports = s.reports ++ [{ response := r, label := some why }] := rfl

@[simp] theorem inspected_reject (s : State) (why : Reject) (r : Response) :
    (reject why r s).inspected = s.inspected := rfl

@[simp] theorem wireBeforeReset_reject (s : State) (why : Reject) (r : Response) :
    (reject why r s).wireBeforeReset = s.wireBeforeReset := rfl

@[simp] theorem current_reject (s : State) (why : Reject) (r : Response) : (reject why r s).current = none := rfl

@[simp] theorem src_reject (s : State) (why : Reject) (r : Response) : (reject why r s).src = s.src := rfl

@[simp] theorem host_reject (s : State) (why : Reject) (r : Response) : (reject why r s).host = s.host := rfl

@[simp] theorem clock_reject (s : State) (why : Reject) (r : Response) : (reject why r s).clock = s.clock := rfl

@[simp] theorem clockWidth_reject (s : State) (why : Reject) (r : Response) :
    (reject why r s).clockWidth = s.clockWidth := rfl

@[simp] theorem clockReads_reject (s : State) (why : Reject) (r : Response) :
    (reject why r s).clockReads = s.clockReads := rfl

@[simp] theorem txReady_reject (s : State) (why : Reject) (r : Response) :
    (reject why r s).txReady = s.txReady := rfl

/-! ### openWrite -/

@[simp] theorem pkts_openWrite (s : State) (ph : Phase) (n : Nat) : (openWrite ph n s).pkts = s.pkts := rfl

@[simp] theorem crc_openWrite (s : State) (ph : Phase) (n : Nat) : (openWrite ph n s).crc = s.crc := rfl

@[simp] theorem phase_openWrite (s : State) (ph : Phase) (n : Nat) : (openWrite ph n s).phase = ph := rfl

@[simp] theorem idx_openWrite (s : State) (ph : Phase) (n : Nat) : (openWrite ph n s).idx = 0 := rfl

@[simp] theorem busy_openWrite (s : State) (ph : Phase) (n : Nat) : (openWrite ph n s).busy = s.busy := rfl

@[simp] theorem recBuf_openWrite (s : State) (ph : Phase) (n : Nat) : (openWrite ph n s).recBuf = s.recBuf := rfl

@[simp] theorem sink_openWrite (s : State) (ph : Phase) (n : Nat) :
    (openWrite ph n s).sink = s.sink ++ [{ count := n, bytes := [] }] := rfl

@[simp] theorem reports_openWrite (s : State) (ph : Phase) (n : Nat) :
    (openWrite ph n s).reports = s.reports := rfl

@[simp] theorem inspected_openWrite (s : State) (ph : Phase) (n : Nat) :
    (openWrite ph n s).inspected = s.inspected := rfl

@[simp] theorem wireBeforeReset_openWrite (s : State) (ph : Phase) (n : Nat) :
    (openWrite ph n s).wireBeforeReset = s.wireBeforeReset := rfl

@[simp] theorem current_openWrite (s : State) (ph : Phase) (n : Nat) :
    (openWrite ph n s).current = s.current := rfl

@[simp] theorem src_openWrite (s : State) (ph : Phase) (n : Nat) : (openWrite ph n s).src = s.src := rfl

@[simp] theorem host_openWrite (s : State) (ph : Phase) (n : Nat) : (openWrite ph n s).host = s.host := rfl

@[simp] theorem clock_openWrite (s : State) (ph : Phase) (n : Nat) : (openWrite ph n s).clock = s.clock := rfl

@[simp] theorem clockWidth_openWrite (s : State) (ph : Phase) (n : Nat) :
    (openWrite ph n s).clockWidth = s.clockWidth := rfl

@[simp] theorem clockReads_openWrite (s : State) (ph : Phase) (n : Nat) :
    (openWrite ph n s).clockReads = s.clockReads := rfl

@[simp] theorem txReady_openWrite (s : State) (ph : Phase) (n : Nat) :
    (openWrite ph n s).txReady = s.txReady := rfl

/-! ### emitByte -/

@[simp] theorem pkts_emitByte (s : State) (b : Byte) : (emitByte b s).pkts = s.pkts := rfl

@[simp] theorem crc_emitByte (s : State) (b : Byte) : (emitByte b s).crc = s.crc := rfl

@[simp] theorem phase_emitByte (s : State) (b : Byte) : (emitByte b s).phase = s.phase := rfl

@[simp] theorem idx_emitByte (s : State) (b : Byte) : (emitByte b s).idx = s.idx + 1 := rfl

@[simp] theorem busy_emitByte (s : State) (b : Byte) : (emitByte b s).busy = s.busy := rfl

@[simp] theorem recBuf_emitByte (s : State) (b : Byte) : (emitByte b s).recBuf = s.recBuf := rfl

@[simp] theorem sink_emitByte (s : State) (b : Byte) : (emitByte b s).sink = extendLast s.sink b := rfl

@[simp] theorem reports_emitByte (s : State) (b : Byte) : (emitByte b s).reports = s.reports := rfl

@[simp] theorem inspected_emitByte (s : State) (b : Byte) : (emitByte b s).inspected = s.inspected := rfl

@[simp] theorem wireBeforeReset_emitByte (s : State) (b : Byte) :
    (emitByte b s).wireBeforeReset = s.wireBeforeReset := rfl

@[simp] theorem current_emitByte (s : State) (b : Byte) : (emitByte b s).current = s.current := rfl

@[simp] theorem src_emitByte (s : State) (b : Byte) : (emitByte b s).src = s.src := rfl

@[simp] theorem host_emitByte (s : State) (b : Byte) : (emitByte b s).host = s.host := rfl

@[simp] theorem clock_emitByte (s : State) (b : Byte) : (emitByte b s).clock = s.clock := rfl

@[simp] theorem clockWidth_emitByte (s : State) (b : Byte) : (emitByte b s).clockWidth = s.clockWidth := rfl

@[simp] theorem clockReads_emitByte (s : State) (b : Byte) : (emitByte b s).clockReads = s.clockReads := rfl

@[simp] theorem txReady_emitByte (s : State) (b : Byte) : (emitByte b s).txReady = s.txReady := rfl

/-! ### clockRead -/

@[simp] theorem pkts_clockRead (s : State) : (clockRead s).2.pkts = s.pkts := by unfold clockRead; split <;> rfl

@[simp] theorem crc_clockRead (s : State) : (clockRead s).2.crc = s.crc := by unfold clockRead; split <;> rfl

@[simp] theorem phase_clockRead (s : State) : (clockRead s).2.phase = s.phase := by unfold clockRead; split <;> rfl

@[simp] theorem idx_clockRead (s : State) : (clockRead s).2.idx = s.idx := by unfold clockRead; split <;> rfl

@[simp] theorem busy_clockRead (s : State) : (clockRead s).2.busy = s.busy := by unfold clockRead; split <;> rfl

@[simp] theorem recBuf_clockRead (s : State) : (clockRead s).2.recBuf = s.recBuf := by unfold clockRead; split <;> rfl

@[simp] theorem sink_clockRead (s : State) : (clockRead s).2.sink = s.sink := by unfold clockRead; split <;> rfl

@[simp] theorem reports_clockRead (s : State) : (clockRead s).2.reports = s.reports := by unfold clockRead; split <;> rfl

@[simp] theorem inspected_clockRead (s : State) : (clockRead s).2.inspected = s.inspected := by unfold clockRead; split <;> rfl

@[simp] theorem wireBeforeReset_clockRead (s : State) : (clockRead s).2.wireBeforeReset = s.wireBeforeReset := by unfold clockRead; split <;> rfl

@[simp] theorem current_clockRead (s : State) : (clockRead s).2.current = s.current := by unfold clockRead; split <;> rfl

@[simp] theorem src_clockRead (s : State) : (clockRead s).2.src = s.src := by unfold clockRead; split <;> rfl

@[simp] theorem host_clockRead (s : State) : (clockRead s).2.host = s.host := by unfold clockRead; split <;> rfl

@[simp] theorem txReady_clockRead (s : State) : (clockRead s).2.txReady = s.txReady := by unfold clockRead; split <;> rfl

@[simp] theorem clockWidth_clockRead (s : State) : (clockRead s).2.clockWidth = s.clockWidth := by
  unfold clockRead; split <;> rfl

@[simp] theorem clockReads_clockRead (s : State) : (clockRead s).2.clockReads = s.clockReads + 1 := by
  unfold clockRead; split <;> rfl

/-- A `CLOCK_WIDTH`-bit value is below 2 to the `CLOCK_WIDTH` (R210). -/
theorem clockBus_lt (width now : Nat) : clockBus width now < 2 ^ width := Nat.mod_lt _ (Nat.two_pow_pos width)

/-- The low 16 bits are the same on every bus of at least 16 bits (R95, R210). -/
theorem clockBus_low {width : Nat} (now : Nat) (h : 16 ≤ width) : clockBus width now % 65536 = now % 65536 :=
  Nat.mod_mod_of_dvd now (Nat.pow_dvd_pow 2 h)

/-- A read answers the low `CLOCK_WIDTH` bits of the next scripted number, else of the free value, and takes the number
off the script (R32). -/
theorem clockRead_cases (s : State) :
    (∃ t rest, s.clock = t :: rest ∧ (clockRead s).1 = clockBus s.clockWidth t ∧ (clockRead s).2.clock = rest) ∨
      (s.clock = [] ∧ (clockRead s).1 = clockBus s.clockWidth (Config.freeClock s.clockReads) ∧
        (clockRead s).2.clock = []) := by
  unfold clockRead
  cases h : s.clock with
  | nil => exact .inr ⟨rfl, rfl, rfl⟩
  | cons t rest => exact .inl ⟨t, rest, rfl, rfl, rfl⟩

/-- What a clock read answers and leaves depends on the width, the script and the read count alone. -/
theorem clockRead_congr {s t : State} (hw : s.clockWidth = t.clockWidth) (hc : s.clock = t.clock)
    (hn : s.clockReads = t.clockReads) :
    (clockRead s).1 = (clockRead t).1 ∧ (clockRead s).2.clock = (clockRead t).2.clock := by
  unfold clockRead
  rw [hw, hc, hn]
  cases t.clock <;> simp

/-- A clock read changes the script and the read count and nothing else. -/
theorem clockRead_state (s : State) :
    (clockRead s).2 = { s with clock := (clockRead s).2.clock, clockReads := s.clockReads + 1 } := by
  unfold clockRead
  split <;> rename_i h <;> simp [h]

end Sys2Proof.Machine
end

