-- ==== Sys2Proof/Laws/Framer.lean ====
section
/-! SUPPORT. What the PACK step and the SEND step do, said once: the buffer a PACK leaves (spec/41_framer_pack_send.md
R142), the state around it, and the three writes of a SEND (R145, R146). -/

namespace Sys2Proof.Machine

/-- Write 1 of a frame with timestamp `t` and length `len` (R85). -/
def framePrefix (t : Half) (len : Nat) : List Byte :=
  [Config.hdrByte0, Config.hdrByte1] ++ le16 t ++ le16 (BitVec.ofNat 16 len)

@[simp] theorem framePrefix_length (t : Half) (len : Nat) : (framePrefix t len).length = 6 := rfl

/-- The buffer after the five field writes of a PACK, before the checksum is stored. -/
def filledMem (m : Mem) (t : Half) (len : Nat) (data : List Byte) : Mem :=
  writeBytes
    (writeBytes
      (writeBytes (writeBytes (writeBytes m 0 [Config.hdrByte0]) 1 [Config.hdrByte1]) Config.offTimestamp (le16 t))
      Config.offPayloadSize (le16 (BitVec.ofNat 16 len)))
    Config.offPayload data

/-- The buffer after a PACK. -/
def packedMem (m : Mem) (t : Half) (len : Nat) (data : List Byte) : Mem :=
  writeBytes (filledMem m t len data) Config.offChecksum (le16 (crc16 (framePrefix t len ++ data)))

section
variable {m : Mem} {t : Half} {len : Nat} {data : List Byte}

theorem filledMem_prefix : readBytes (filledMem m t len data) 0 6 = framePrefix t len := by
  unfold filledMem
  rw [readBytes_writeBytes_outside (by simp)]
  simp only [readBytes, read_writeBytes, Config.offTimestamp, Config.offPayloadSize, List.length_cons, List.length_nil,
    framePrefix, le16, List.getD_cons_zero, List.getD_cons_succ, List.cons_append,
    List.nil_append]
  rfl

theorem filledMem_payload (h : data.length = len) : readBytes (filledMem m t len data) 6 len = data :=
  readBytes_writeBytes_len h

theorem filledMem_used (h : data.length = len) :
    readBytes (filledMem m t len data) 0 (6 + len) = framePrefix t len ++ data := by
  rw [readBytes_append, filledMem_prefix, Nat.zero_add, filledMem_payload h]

theorem filledMem_beyond {a : Nat} (h : data.length = len) (ha : 6 + len ≤ a) :
    Mem.read (filledMem m t len data) a = Mem.read m a := by
  unfold filledMem
  rw [read_writeBytes_outside (.inr (by simp only [Config.offPayload]; omega)),
    read_writeBytes_outside (.inr (by simp only [le16_length, Config.offPayloadSize]; omega)),
    read_writeBytes_outside (.inr (by simp only [le16_length, Config.offTimestamp]; omega)),
    read_writeBytes_outside (.inr (by simp only [List.length_cons, List.length_nil]; omega)),
    read_writeBytes_outside (.inr (by simp only [List.length_cons, List.length_nil]; omega))]

/-- R142: the prefix. -/
theorem packedMem_prefix : readBytes (packedMem m t len data) 0 6 = framePrefix t len := by
  unfold packedMem
  rw [readBytes_writeBytes_outside (.inl (by simp only [Config.offChecksum]; omega)), filledMem_prefix]

/-- R142: the payload. -/
theorem packedMem_payload (h : data.length = len) (hl : len ≤ 1024) :
    readBytes (packedMem m t len data) 6 len = data := by
  unfold packedMem
  rw [readBytes_writeBytes_outside (.inl (by simp only [Config.offChecksum]; omega)), filledMem_payload h]

/-- R142: the used span. -/
theorem packedMem_used (h : data.length = len) (hl : len ≤ 1024) :
    readBytes (packedMem m t len data) 0 (6 + len) = framePrefix t len ++ data := by
  rw [readBytes_append, packedMem_prefix, Nat.zero_add, packedMem_payload h hl]

/-- R142: the checksum. -/
theorem packedMem_checksum :
    readBytes (packedMem m t len data) 1030 2 = le16 (crc16 (framePrefix t len ++ data)) :=
  readBytes_writeBytes_len rfl

/-- R142, R34: every byte the PACK does not store to. -/
theorem packedMem_other {a : Nat} (h : data.length = len) (hl : len ≤ 1024)
    (ha : 6 + len ≤ a ∧ a < 1030 ∨ 1032 ≤ a) : Mem.read (packedMem m t len data) a = Mem.read m a := by
  unfold packedMem
  rw [read_writeBytes_outside (by simp only [le16_length, Config.offChecksum]; omega), filledMem_beyond h (by omega)]

/-- R142: the `payload_size` field. -/
theorem packedMem_size (hl : len ≤ 1024) : payloadSize (packedMem m t len data) = len := by
  have h := packedMem_prefix (m := m) (t := t) (len := len) (data := data)
  have h2 : readBytes (packedMem m t len data) 4 2 = le16 (BitVec.ofNat 16 len) := by
    rw [show (6 : Nat) = 4 + 2 from rfl, readBytes_append] at h
    exact (List.append_inj' h rfl).2
  rw [payloadSize, Config.offPayloadSize, read16_of_readBytes h2, BitVec.toNat_ofNat]
  omega

theorem packedMem_wf (hm : Mem.wf m = true) : Mem.wf (packedMem m t len data) = true := by
  unfold packedMem filledMem
  exact wf_writeBytes (wf_writeBytes (wf_writeBytes (wf_writeBytes (wf_writeBytes (wf_writeBytes hm)))))

theorem packedMem_within (h : data.length = len) (hl : len ≤ 1024) (hm : Mem.within m 1032 = true) :
    Mem.within (packedMem m t len data) 1032 = true := by
  unfold packedMem filledMem
  refine within_writeBytes (within_writeBytes (within_writeBytes (within_writeBytes (within_writeBytes
    (within_writeBytes hm ?_) ?_) ?_) ?_) ?_) ?_ <;>
    simp only [List.length_cons, List.length_nil, le16_length, Config.offTimestamp, Config.offPayloadSize,
      Config.offPayload, Config.offChecksum] <;> omega

end

/-- Everything a PACK step does to the state (R140, R142): one clock read, the buffer of its kind, the CRC register. -/
theorem layOut_eq (k : Kind) (len : Nat) (data : List Byte) (s : State) (h : data.length = len) :
    layOut k len data s =
      { s with
        pkts := s.pkts.set k (packedMem (s.pkt k) (trunc16 (clockRead s).1) len data)
        crc := crc16 (framePrefix (trunc16 (clockRead s).1) len ++ data)
        clock := (clockRead s).2.clock
        clockReads := s.clockReads + 1 } := by
  have hc : ∀ p : Packets, clockRead { s with pkts := p } = ((clockRead s).1, { (clockRead s).2 with pkts := p }) := by
    intro p
    unfold clockRead
    cases s.clock <;> rfl
  have hu := filledMem_used (m := s.pkt k) (t := trunc16 (clockRead s).1) h
  unfold packedMem
  rw [← hu]
  have h2 : writePkt k 1 [Config.hdrByte1] (writePkt k 0 [Config.hdrByte0] s) =
      { s with
        pkts := s.pkts.set k (writeBytes (writeBytes (s.pkt k) 0 [Config.hdrByte0]) 1 [Config.hdrByte1]) } := by
    simp [writePkt, State.setPkt, State.pkt]
  unfold layOut
  dsimp only
  rw [h2, hc, clockRead_state s]
  simp only [writePkt, State.setPkt, State.pkt, Packets.get_set_same, Packets.set_set, filledMem]

/-- The state after a SEND step (R145): three writes, the sequencer idle, nothing else. -/
theorem sendStep_eq (k : Kind) (s : State) :
    sendStep k s =
      { s with
        phase := .idle
        idx := 0
        sink := s.sink ++
          [{ count := 6, bytes := readBytes (s.pkt k) 0 6 },
           { count := payloadSize (s.pkt k), bytes := readBytes (s.pkt k) 6 (payloadSize (s.pkt k)) },
           { count := 2, bytes := readBytes (s.pkt k) 1030 2 }] } := by
  simp [sendStep, sinkWrite]

end Sys2Proof.Machine
end

