-- ==== Sys2Proof/Laws/Encoder.lean ====
section
/-! SUPPORT. The bytes of each record (spec/30_encoding.md R88 to R93), the outcomes of the SENDDATA steps
(spec/42_encoder_senders.md R170 to R172), and every command as its beginning run to the end. -/

namespace Sys2Proof.Machine

/-- `framePrefix` and the prefix of the claims are one. -/
theorem framePrefix_eq (t : Half) (n : Nat) : framePrefix t n = prefixBytes t n := rfl

/-! ### Records -/

theorem recDate_bytes (day month year : Word) :
    readBytes (recDate day month year) 0 13 = [1] ++ le32 day ++ le32 month ++ le32 year := by
  have h : readBytes (recDate day month year) 0 1 = [1] := by
    unfold recDate write32
    rw [readBytes_writeBytes_outside (.inl (by omega)), readBytes_writeBytes_outside (.inl (by omega)),
      readBytes_writeBytes_outside (.inl (by omega))]
    rfl
  have h1 : readBytes (recDate day month year) 1 4 = le32 day := by
    unfold recDate write32
    rw [readBytes_writeBytes_outside (.inl (by omega)), readBytes_writeBytes_outside (.inl (by omega)),
      readBytes_writeBytes_len (le32_length _)]
  have h5 : readBytes (recDate day month year) 5 4 = le32 month := by
    unfold recDate write32
    rw [readBytes_writeBytes_outside (.inl (by omega)), readBytes_writeBytes_len (le32_length _)]
  have h9 : readBytes (recDate day month year) 9 4 = le32 year := readBytes_writeBytes_len rfl
  rw [show (13 : Nat) = 1 + 4 + 4 + 4 from rfl, readBytes_append, readBytes_append, readBytes_append, h]
  simp only [Nat.zero_add, Nat.reduceAdd, h1, h5, h9]

theorem recTime_bytes (hour : Byte) (minute second : Half) :
    readBytes (recTime hour minute second) 0 6 = [2, hour] ++ le16 minute ++ le16 second := by
  have h : readBytes (recTime hour minute second) 0 2 = [2, hour] := by
    unfold recTime write16
    rw [readBytes_writeBytes_outside (.inl (by omega)), readBytes_writeBytes_outside (.inl (by omega))]
    simp [readBytes, read_write, recordId]
  have h2 : readBytes (recTime hour minute second) 2 2 = le16 minute := by
    unfold recTime write16
    rw [readBytes_writeBytes_outside (.inl (by omega)), readBytes_writeBytes_len (le16_length _)]
  have h4 : readBytes (recTime hour minute second) 4 2 = le16 second := readBytes_writeBytes_len rfl
  rw [show (6 : Nat) = 2 + 2 + 2 from rfl, readBytes_append, readBytes_append, h]
  simp only [Nat.zero_add, Nat.reduceAdd, h2, h4]

theorem recAdc_bytes (sampleCount : Word) (value : Half) :
    readBytes (recAdc sampleCount value) 0 7 = [3] ++ le32 sampleCount ++ le16 value := by
  have h : readBytes (recAdc sampleCount value) 0 1 = [3] := by
    unfold recAdc write16 write32
    rw [readBytes_writeBytes_outside (.inl (by omega)), readBytes_writeBytes_outside (.inl (by omega))]
    rfl
  have h1 : readBytes (recAdc sampleCount value) 1 4 = le32 sampleCount := by
    unfold recAdc write16 write32
    rw [readBytes_writeBytes_outside (.inl (by omega)), readBytes_writeBytes_len (le32_length _)]
  have h5 : readBytes (recAdc sampleCount value) 5 2 = le16 value := readBytes_writeBytes_len rfl
  rw [show (7 : Nat) = 1 + 4 + 2 from rfl, readBytes_append, readBytes_append, h]
  simp only [Nat.zero_add, Nat.reduceAdd, h1, h5]

theorem recText_bytes (text : List Byte) (n : Nat) (h : text.length = n) :
    readBytes (recText text n) 0 (3 + n) = [4] ++ le16 (BitVec.ofNat 16 n) ++ text := by
  have h0 : readBytes (recText text n) 0 1 = [4] := by
    unfold recText write16
    rw [readBytes_writeBytes_outside (.inl (by omega)), readBytes_writeBytes_outside (.inl (by omega))]
    rfl
  have h1 : readBytes (recText text n) 1 2 = le16 (BitVec.ofNat 16 n) := by
    unfold recText write16
    rw [readBytes_writeBytes_outside (.inl (by omega)), readBytes_writeBytes_len (le16_length _)]
  have h3 : readBytes (recText text n) 3 n = text := readBytes_writeBytes_len h
  rw [show 3 + n = 1 + 2 + n by omega, readBytes_append, readBytes_append, h0]
  simp only [Nat.zero_add, Nat.reduceAdd, h1, h3]

theorem recButton_bytes (buttonId : Byte) (state : Half) :
    readBytes (recButton buttonId state) 0 4 = [5, buttonId] ++ le16 state := by
  have h : readBytes (recButton buttonId state) 0 2 = [5, buttonId] := by
    unfold recButton write16
    rw [readBytes_writeBytes_outside (.inl (by omega))]
    simp [readBytes, read_write, recordId]
  have h2 : readBytes (recButton buttonId state) 2 2 = le16 state := readBytes_writeBytes_len rfl
  rw [show (4 : Nat) = 2 + 2 from rfl, readBytes_append, h]
  simp only [Nat.zero_add, h2]

theorem recTemp_bytes (value : Half) : readBytes (recTemp value) 0 3 = [6] ++ le16 value := by
  have h : readBytes (recTemp value) 0 1 = [6] := by
    unfold recTemp write16
    rw [readBytes_writeBytes_outside (.inl (by omega))]
    rfl
  have h1 : readBytes (recTemp value) 1 2 = le16 value := readBytes_writeBytes_len rfl
  rw [show (3 : Nat) = 1 + 2 from rfl, readBytes_append, h]
  simp only [Nat.zero_add, h1]

/-! ### The SENDDATA steps -/

@[simp] theorem readSrc_length (n : Nat) (s : State) : (readSrc n s).length = n := readBytes_length _ _ _

/-- R170, R171: size 0 and size above 1024 are rejected; any other size is packed and is to be sent. -/
theorem beginData_cases (k : Kind) (size : Nat) (data : List Byte) (s : State) :
    (size = 0 ∧ beginData k size data s = .ended (reject .zeroSize .noResult s)) ∨
    (1024 < size ∧ beginData k size data s = .ended (reject .tooLong .noResult s)) ∨
    (0 < size ∧ size ≤ 1024 ∧ beginData k size data s = .framing k (layOut k size data s)) := by
  unfold beginData packStep
  by_cases h0 : size = 0
  · exact .inl ⟨h0, by simp [h0]⟩
  · by_cases h1 : 1024 < size
    · exact .inr (.inl ⟨h1, by simp [h0, h1]⟩)
    · exact .inr (.inr ⟨by omega, by omega, by simp [h0, h1]⟩)

/-- A size a PACK accepts. -/
theorem beginData_ok {k : Kind} {size : Nat} {data : List Byte} {s : State} (h0 : 0 < size) (h1 : size ≤ 1024) :
    beginData k size data s = .framing k (layOut k size data s) := by
  rcases beginData_cases k size data s with ⟨h, -⟩ | ⟨h, -⟩ | ⟨-, -, h⟩
  · omega
  · omega
  · exact h

/-- What a PACK leaves is what the rule says. -/
theorem packedMem_packedAs {m : Mem} {t : Half} {data : List Byte} (h : data.length ≤ 1024) :
    PackedAs m (packedMem m t data.length data) t data :=
  ⟨packedMem_used rfl h, packedMem_checksum, fun _ ha => packedMem_other rfl h ha⟩

/-- A packed buffer, sent: the SEND step emits exactly the frame that the PACK step laid out. -/
theorem sendStep_layOut (k : Kind) (data : List Byte) (s : State) (response : Response) (h : data.length ≤ 1024) :
    AfterFrame k data response s (finish response none (sendStep k (layOut k data.length data s))) := by
  refine ⟨packedMem (s.pkt k) (trunc16 (clockRead s).1) data.length data, packedMem_packedAs h, ?_⟩
  rw [sendStep_eq, layOut_eq _ _ _ _ rfl]
  simp only [finish, State.pkt, Packets.get_set_same, packedMem_prefix, packedMem_size h, packedMem_payload rfl h,
    packedMem_checksum, framePrefix_eq]

/-- A record whose size a PACK accepts is packed and sent, as the SENDDATA steps on its bytes would; `REC` is gone at
the end of the command. -/
theorem runWhole_beginRecord (k : Kind) (size : Nat) (r : Mem) (s : State) (record : List Byte)
    (hr : readBytes r 0 size = record) (h0 : 0 < size) (h1 : size ≤ 1024) :
    runWhole .noResult (beginRecord k size r s) =
      .next (finish .noResult none (sendStep k (layOut k record.length record s))) := by
  have hl : record.length = size := by rw [← hr]; exact readBytes_length _ _ _
  subst hl
  rw [beginRecord, beginData_ok h0 h1, runWhole, hr, layOut_eq _ _ _ _ rfl, layOut_eq _ _ _ _ rfl]
  have hc := clockRead_congr (s := { s with recBuf := some r }) (t := s) rfl rfl rfl
  simp [sendStep_eq, finish, hc.1, hc.2, State.pkt]

/-! ### Every command as its beginning -/

/-- R60: a command is its beginning run to the end. -/
theorem exec_eq_runWhole (i : Instr) (s : State) : exec i s = runWhole (frameResponse i) (beginCommand i s) := by
  cases i <;> simp only [exec, execSendDate, execSendTime, execSendAdc, execSendText, execSendButton, execSendTemp,
    execCrc16, execPack, execSend, execSenddata, frameResponse, beginCommand]

end Sys2Proof.Machine
end

