-- ==== Sys2Proof/Laws/Commands.lean ====
section
/-! SUPPORT. What a command can do, said once: the six ways it can have come to its end or to its frame
(`beginCommand_began`), and the state it leaves in each. -/

namespace Sys2Proof.Machine

/-- The response of a rejected command (spec/60_exceptions.md R200, "reported as"). -/
def rejectResponse : Instr → Response
  | .sendDate _ _ _ => .noResult
  | .sendTime _ _ _ => .noResult
  | .sendAdc _ _ => .noResult
  | .sendText _ _ => .noResult
  | .sendButton _ _ => .noResult
  | .sendTemp _ => .noResult
  | .crc16 _ _ => .status false
  | .pack _ _ _ => .status false
  | .send _ => .status false
  | .senddata _ _ _ => .noResult

/-- How command `i` begins from state `s`. -/
inductive Began (i : Instr) (s : State) : Begun → Prop
  /-- a guard rejects it (R202) -/
  | rejected (why : Reject) : Began i s (.ended (reject why (rejectResponse i) s))
  /-- CRC16 with its source (R124) -/
  | checksum (sp : Bool) (len : Nat) (hi : i = .crc16 sp len) (v : Half) :
      Began i s (.ended (finish (.checksum v) none { s with crc := v }))
  /-- PACK whose guards pass (R140) -/
  | packed (pkt : Nat) (sp : Bool) (len : Nat) (hi : i = .pack pkt sp len) (k : Kind) (hk : handleKind pkt = some k)
      (data : List Byte) (hd : data.length ≤ 1024) :
      Began i s (.ended (finish (.status true) none (layOut k data.length data s)))
  /-- SEND of a present handle (R145) -/
  | sending (pkt : Nat) (hi : i = .send pkt) (k : Kind) (hk : handleKind pkt = some k)
      (hn : payloadSize (s.pkt k) ≤ 1024) : Began i s (.framing k s)
  /-- SENDDATA or a sender whose guards pass (R170, R172) -/
  | framed (k : Kind) (hf : frameKind i = some k) (hp : packsInto i = some k) (hr : frameResponse i = .noResult)
      (data : List Byte) (h0 : 0 < data.length) (hd : data.length ≤ 1024) (r : Option Mem)
      (hrec : r = s.recBuf ∨ ∃ m, r = some m ∧ Mem.wf m = true ∧ Mem.within m 1027 = true) :
      Began i s (.framing k (layOut k data.length data { s with recBuf := r }))
  /-- a term or a state that no run reaches (log entries 4, 5) -/
  | stopped (f : Fault)
      (hw : (∃ sp len, i = .crc16 sp len ∧ 65536 < len) ∨
        ∃ pkt k, i = .send pkt ∧ handleKind pkt = some k ∧ 1024 < payloadSize (s.pkt k)) :
      Began i s (.stopped f)

/-! ### The staging buffer -/

theorem wf_recDate (d m y : Word) : Mem.wf (recDate d m y) = true ∧ Mem.within (recDate d m y) 1027 = true := by
  unfold recDate write32
  refine ⟨wf_writeBytes (wf_writeBytes (wf_writeBytes (wf_write rfl))), ?_⟩
  refine within_writeBytes (within_writeBytes (within_writeBytes (within_write rfl ?_) ?_) ?_) ?_ <;>
    (try simp only [le32_length]) <;> omega

theorem wf_recTime (h : Byte) (m x : Half) :
    Mem.wf (recTime h m x) = true ∧ Mem.within (recTime h m x) 1027 = true := by
  unfold recTime write16
  refine ⟨wf_writeBytes (wf_writeBytes (wf_write (wf_write rfl))), ?_⟩
  refine within_writeBytes (within_writeBytes (within_write (within_write rfl ?_) ?_) ?_) ?_ <;>
    (try simp only [le16_length]) <;> omega

theorem wf_recAdc (n : Word) (v : Half) : Mem.wf (recAdc n v) = true ∧ Mem.within (recAdc n v) 1027 = true := by
  unfold recAdc write16 write32
  refine ⟨wf_writeBytes (wf_writeBytes (wf_write rfl)), ?_⟩
  refine within_writeBytes (within_writeBytes (within_write rfl ?_) ?_) ?_ <;>
    (try simp only [le16_length, le32_length]) <;> omega

theorem wf_recText (text : List Byte) (n : Nat) (h : text.length ≤ 1024) :
    Mem.wf (recText text n) = true ∧ Mem.within (recText text n) 1027 = true := by
  unfold recText write16
  refine ⟨wf_writeBytes (wf_writeBytes (wf_write rfl)), ?_⟩
  refine within_writeBytes (within_writeBytes (within_write rfl ?_) ?_) ?_ <;>
    (try simp only [le16_length]) <;> omega

theorem wf_recButton (b : Byte) (v : Half) :
    Mem.wf (recButton b v) = true ∧ Mem.within (recButton b v) 1027 = true := by
  unfold recButton write16
  refine ⟨wf_writeBytes (wf_write (wf_write rfl)), ?_⟩
  refine within_writeBytes (within_write (within_write rfl ?_) ?_) ?_ <;>
    (try simp only [le16_length]) <;> omega

theorem wf_recTemp (v : Half) : Mem.wf (recTemp v) = true ∧ Mem.within (recTemp v) 1027 = true := by
  unfold recTemp write16
  refine ⟨wf_writeBytes (wf_write rfl), ?_⟩
  refine within_writeBytes (within_write rfl ?_) ?_ <;> (try simp only [le16_length]) <;> omega

/-! ### How every command begins -/

/-- The SENDDATA steps begin in one of two ways. -/
theorem beginData_began {i : Instr} {s : State} (k : Kind) (hf : frameKind i = some k) (hp : packsInto i = some k)
    (hr : frameResponse i = .noResult) (hj : rejectResponse i = .noResult) (data : List Byte) (r : Option Mem)
    (hrec : r = s.recBuf ∨ ∃ m, r = some m ∧ Mem.wf m = true ∧ Mem.within m 1027 = true) :
    Began i s (beginData k data.length data { s with recBuf := r }) := by
  rcases beginData_cases k data.length data { s with recBuf := r } with ⟨-, e⟩ | ⟨-, e⟩ | ⟨h0, h1, e⟩ <;> rw [e]
  · have := Began.rejected (i := i) (s := s) .zeroSize
    rw [hj] at this
    exact this
  · have := Began.rejected (i := i) (s := s) .tooLong
    rw [hj] at this
    exact this
  · exact .framed k hf hp hr data h0 h1 r hrec

/-- A sender begins in one of two ways. -/
theorem beginRecord_began {i : Instr} {s : State} (k : Kind) (hf : frameKind i = some k) (hp : packsInto i = some k)
    (hr : frameResponse i = .noResult) (hj : rejectResponse i = .noResult) (size : Nat) (m : Mem)
    (hm : Mem.wf m = true ∧ Mem.within m 1027 = true) : Began i s (beginRecord k size m s) := by
  have h := beginData_began (s := s) k hf hp hr hj (readBytes m 0 size) (some m)
    (.inr ⟨m, rfl, hm.1, hm.2⟩)
  rwa [readBytes_length] at h

/-- Every command begins in one of the six ways. -/
theorem beginCommand_began (i : Instr) (s : State) : Began i s (beginCommand i s) := by
  cases i with
  | sendDate d m y => exact beginRecord_began .date rfl rfl rfl rfl 13 _ (wf_recDate d m y)
  | sendTime h m x => exact beginRecord_began .time rfl rfl rfl rfl 6 _ (wf_recTime h m x)
  | sendAdc n v => exact beginRecord_began .adcSample rfl rfl rfl rfl 7 _ (wf_recAdc n v)
  | sendText sp len =>
    rw [beginCommand, beginText]
    cases sp with
    | false => exact Began.rejected (i := .sendText false len) .noSource
    | true =>
      exact beginRecord_began .textMessage rfl rfl rfl rfl _ _
        (wf_recText _ _ (by simp [clampText, Config.textClamp]))
  | sendButton b v => exact beginRecord_began .buttonState rfl rfl rfl rfl 4 _ (wf_recButton b v)
  | sendTemp v => exact beginRecord_began .mcuTemperature rfl rfl rfl rfl 3 _ (wf_recTemp v)
  | crc16 sp len =>
    rw [beginCommand, beginCrc16]
    split
    · exact Began.rejected (i := .crc16 sp len) .noSource
    · split
      · rename_i h; exact .stopped _ (.inl ⟨sp, len, rfl, h⟩)
      · exact .checksum sp len rfl _
  | pack pkt sp len =>
    rw [beginCommand, beginPack]
    cases hk : handleKind pkt with
    | none => exact Began.rejected (i := .pack pkt sp len) .noPacket
    | some k =>
      cases sp with
      | false => exact Began.rejected (i := .pack pkt false len) .noSource
      | true =>
        by_cases h : Config.maxPayload < len
        · simp only [packStep, h, if_true, Bool.true_eq_false, if_false]
          exact Began.rejected (i := .pack pkt true len) .tooLong
        · simp only [packStep, h, Bool.true_eq_false, if_false]
          have := Began.packed (i := .pack pkt true len) (s := s) pkt true len rfl k hk (readSrc len s)
            (by rw [readSrc_length]; exact Nat.le_of_not_lt h)
          rwa [readSrc_length] at this
  | send pkt =>
    rw [beginCommand, beginSend]
    cases hk : handleKind pkt with
    | none => exact Began.rejected (i := .send pkt) .noPacket
    | some k =>
      by_cases h : Config.maxPayload < payloadSize (s.pkt k)
      · simp only [h, if_true]
        exact .stopped _ (.inr ⟨pkt, k, rfl, hk, h⟩)
      · simp only [h, if_false]
        exact .sending pkt rfl k hk (Nat.le_of_not_lt h)
  | senddata pkt sp len =>
    rw [beginCommand, beginSenddata]
    cases hk : handleKind pkt with
    | none => exact Began.rejected (i := .senddata pkt sp len) .noPacket
    | some k =>
      cases sp with
      | false => exact Began.rejected (i := .senddata pkt false len) .noSource
      | true =>
        have h := beginData_began (i := .senddata pkt true len) (s := s) k hk hk rfl rfl (readSrc len s) s.recBuf
          (.inl rfl)
        rw [readSrc_length] at h
        exact h

/-! ### Commands whose guards pass -/

/-- PACK of a present handle and source, at most 1024 bytes (R140). -/
theorem exec_pack_ok {pkt len : Nat} {k : Kind} (s : State) (hk : handleKind pkt = some k) (hl : len ≤ 1024) :
    exec (.pack pkt true len) s = .next (finish (.status true) none (layOut k len (readSrc len s) s)) := by
  have h : ¬ 1024 < len := by omega
  simp [exec, execPack, beginPack, hk, packStep, h, runWhole]

/-- SEND of a present handle (R145). -/
theorem exec_send_ok {pkt : Nat} {k : Kind} (s : State) (hk : handleKind pkt = some k)
    (hn : payloadSize (s.pkt k) ≤ 1024) :
    exec (.send pkt) s = .next (finish (.status true) none (sendStep k s)) := by
  have h : ¬ 1024 < payloadSize (s.pkt k) := by omega
  simp [exec, execSend, beginSend, hk, h, runWhole]

/-- SENDDATA of a present handle and source, 1 to 1024 bytes (R170). -/
theorem exec_senddata_ok {pkt len : Nat} {k : Kind} (s : State) (hk : handleKind pkt = some k) (h0 : 0 < len)
    (hl : len ≤ 1024) :
    exec (.senddata pkt true len) s = .next (finish .noResult none (sendStep k (layOut k len (readSrc len s) s))) := by
  simp [exec, execSenddata, beginSenddata, hk, beginData_ok h0 hl, runWhole]

/-- A sender whose record a PACK accepts (R172). -/
theorem exec_record {i : Instr} {s : State} {k : Kind} {record : List Byte} (h : recordOf i s = some (k, record))
    (hl : record.length ≤ 1024) :
    exec i s = .next (finish .noResult none (sendStep k (layOut k record.length record s))) := by
  cases i with
  | sendDate d m y =>
    cases h; exact runWhole_beginRecord _ _ _ _ _ (recDate_bytes d m y) (by omega) (by omega)
  | sendTime h' m x =>
    cases h; exact runWhole_beginRecord _ _ _ _ _ (recTime_bytes h' m x) (by omega) (by omega)
  | sendAdc n v =>
    cases h; exact runWhole_beginRecord _ _ _ _ _ (recAdc_bytes n v) (by omega) (by omega)
  | sendText sp len =>
    cases sp with
    | false => simp [recordOf] at h
    | true =>
      simp only [recordOf, if_true, Option.some.injEq, Prod.mk.injEq] at h
      obtain ⟨rfl, hrec⟩ := h
      have hb := recText_bytes (readSrc (clampText len) s) (clampText len) (readSrc_length _ _)
      have hn : record.length = 3 + min len 1024 := by rw [← hrec]; simp; omega
      rw [← hrec]
      exact runWhole_beginRecord _ _ _ _ _ hb (by omega) (by rw [clampText]; simp only [Config.textClamp]; omega)
  | sendButton b v =>
    cases h; exact runWhole_beginRecord _ _ _ _ _ (recButton_bytes b v) (by omega) (by omega)
  | sendTemp v => cases h; exact runWhole_beginRecord _ _ _ _ _ (recTemp_bytes v) (by omega) (by omega)
  | crc16 sp len => simp [recordOf] at h
  | pack pkt sp len => simp [recordOf] at h
  | send pkt => simp [recordOf] at h
  | senddata pkt sp len => simp [recordOf] at h

/-! ### A packed buffer, read by its fields -/

/-- The fields of a packed buffer (R22, R142). -/
theorem PackedAs.fields {m m' : Mem} {t : Half} {data : List Byte} (h : PackedAs m m' t data)
    (hl : data.length ≤ 1024) :
    readBytes m' 0 6 = prefixBytes t data.length ∧ readBytes m' 6 data.length = data ∧
      payloadSize m' = data.length ∧ Mem.read m' 0 = 0xDE ∧ Mem.read m' 1 = 0xAB ∧
      read16 m' 1030 = crc16 (readBytes m' 0 (6 + data.length)) := by
  obtain ⟨h1, h2, -⟩ := h
  have h3 : readBytes m' 0 6 = prefixBytes t data.length ∧ readBytes m' 6 data.length = data := by
    have h1' := h1
    rw [readBytes_append, Nat.zero_add] at h1'
    exact List.append_inj h1' (by simp [prefixBytes])
  have h4 : readBytes m' 4 2 = le16 (BitVec.ofNat 16 data.length) := by
    have h := h3.1
    rw [show (6 : Nat) = 4 + 2 from rfl, readBytes_append] at h
    exact (List.append_inj' h rfl).2
  have h5 : readBytes m' 0 2 = [0xDE, 0xAB] := by
    have h := h3.1
    rw [show (6 : Nat) = 2 + 4 from rfl, readBytes_append, prefixBytes, List.append_assoc] at h
    exact (List.append_inj h rfl).1
  refine ⟨h3.1, h3.2, ?_, ?_, ?_, ?_⟩
  · rw [payloadSize, Config.offPayloadSize, read16_of_readBytes h4, BitVec.toNat_ofNat]
    omega
  · exact (List.cons.inj h5).1
  · exact (List.cons.inj (List.cons.inj h5).2).1
  · rw [read16_of_readBytes h2, h1]

end Sys2Proof.Machine
end

