-- ==== Sys2Proof/Laws/Decode.lean ====
section
/-! SUPPORT. The fields of a command word built by the assembler (spec/30_encoding.md R82, R104), and the opcode and
reserved bits of a word as the mask of the opcode table sees them (R97). -/

namespace Sys2Proof

section
variable {op pkt len : Nat} (sp : Bool)

theorem commandWord_toNat (ho : op < 256) (hp : pkt < 8) (hl : len < 65536) :
    (commandWord op sp pkt len).toNat = op * 2 ^ 24 + sp.toNat * 2 ^ 19 + pkt * 2 ^ 16 + len := by
  have hs : sp.toNat ≤ 1 := Bool.toNat_le sp
  rw [commandWord, BitVec.toNat_ofNat]
  omega

theorem opField_commandWord (ho : op < 256) (hp : pkt < 8) (hl : len < 65536) :
    opField (commandWord op sp pkt len) = op := by
  have hs : sp.toNat ≤ 1 := Bool.toNat_le sp
  rw [opField, BitVec.extractLsb'_toNat, commandWord_toNat sp ho hp hl, Nat.shiftRight_eq_div_pow]
  omega

theorem rsvField_commandWord (ho : op < 256) (hp : pkt < 8) (hl : len < 65536) :
    rsvField (commandWord op sp pkt len) = 0 := by
  have hs : sp.toNat ≤ 1 := Bool.toNat_le sp
  rw [rsvField, BitVec.extractLsb'_toNat, commandWord_toNat sp ho hp hl, Nat.shiftRight_eq_div_pow]
  omega

theorem pktField_commandWord (ho : op < 256) (hp : pkt < 8) (hl : len < 65536) :
    pktField (commandWord op sp pkt len) = pkt := by
  have hs : sp.toNat ≤ 1 := Bool.toNat_le sp
  rw [pktField, BitVec.extractLsb'_toNat, commandWord_toNat sp ho hp hl, Nat.shiftRight_eq_div_pow]
  omega

theorem lenField_commandWord (ho : op < 256) (hp : pkt < 8) (hl : len < 65536) :
    lenField (commandWord op sp pkt len) = len := by
  have hs : sp.toNat ≤ 1 := Bool.toNat_le sp
  rw [lenField, BitVec.extractLsb'_toNat, commandWord_toNat sp ho hp hl, Nat.shiftRight_eq_div_pow]
  omega

theorem spField_commandWord (ho : op < 256) (hp : pkt < 8) (hl : len < 65536) :
    spField (commandWord op sp pkt len) = sp := by
  have hs : sp.toNat ≤ 1 := Bool.toNat_le sp
  rw [spField, BitVec.getLsbD, commandWord_toNat sp ho hp hl, Nat.testBit_eq_decide_div_mod_eq]
  cases sp <;> simp only [Bool.toNat_true, Bool.toNat_false, decide_eq_true_eq, decide_eq_false_iff_not] <;> omega

end

/-- The opcode, then the reserved bits: the bits the mask of every row of the opcode table keeps (R97). -/
theorem masked_toNat (cw : Word) : (cw &&& 0xFFF00000).toNat = (opField cw * 16 + rsvField cw) * 2 ^ 20 := by
  have hm : (cw &&& 0xFFF00000 : Word) = (cw >>> 20) <<< 20 := by
    ext i hi
    have hk : (0xFFF00000 : Word)[i] = decide (20 ≤ i) := by
      revert i; decide
    simp only [BitVec.getElem_and, hk, BitVec.getElem_shiftLeft]
    by_cases h : 20 ≤ i
    · simp [h, show ¬ i < 20 by omega, ← BitVec.getLsbD_eq_getElem hi, show 20 + (i - 20) = i by omega]
    · simp [h, show i < 20 by omega]
  have hlt := cw.isLt
  rw [hm, opField, rsvField, BitVec.extractLsb'_toNat, BitVec.extractLsb'_toNat]
  simp only [BitVec.toNat_shiftLeft, BitVec.toNat_ushiftRight, Nat.shiftRight_eq_div_pow, Nat.shiftLeft_eq]
  omega

theorem rsvField_lt (cw : Word) : rsvField cw < 16 := (cw.extractLsb' 20 4).isLt

theorem opField_lt (cw : Word) : opField cw < 256 := (cw.extractLsb' 24 8).isLt

/-- A word matches the row of opcode `op` exactly when its opcode is `op` and its reserved bits are 0 (R97, R100). -/
theorem masked_eq_iff (cw : Word) (op : Nat) (h : op < 256) :
    cw &&& 0xFFF00000 = BitVec.ofNat 32 (op * 2 ^ 24) ↔ opField cw = op ∧ rsvField cw = 0 := by
  have hr := rsvField_lt cw
  have ho := opField_lt cw
  rw [← BitVec.toNat_inj, masked_toNat, BitVec.toNat_ofNat]
  omega

end Sys2Proof
end

