-- ==== Sys2Proof/Laws/Sequencer.lean ====
section
/-! SUPPORT. What one step of the byte sequencer can do, said once (`tick_cases`), and the arithmetic of its index
(spec/41_framer_pack_send.md R148, R149). -/

namespace Sys2Proof.Machine

/-- Where the sequencer goes when the open write is complete (R148). -/
def afterWrite (i : Instr) (k : Kind) (s : State) : State :=
  match s.phase with
  | .idle => s
  | .prefixWrite => openWrite .payloadWrite (payloadSize (s.pkt k)) s
  | .payloadWrite => openWrite .checksumWrite 2 s
  | .checksumWrite => finish (frameResponse i) none { s with phase := .idle, idx := 0 }

/-- A step in mid-frame offers the byte at `idx`, or goes on when the open write is complete. -/
theorem tick_of {s : State} {i : Instr} {k : Kind} (hc : s.current = some i) (hk : frameKind i = some k)
    (hn : payloadSize (s.pkt k) ≤ 1024) (hp : s.phase ≠ .idle) :
    tick s = .next (if s.idx.toNat < phaseCount (s.pkt k) s.phase then offerByte (txData k s) s
      else afterWrite i k s) := by
  have h : ¬ Config.maxPayload < payloadSize (s.pkt k) := Nat.not_lt.2 hn
  rw [tick, hc]
  simp only [hk, tickFrame, h, if_false]
  cases hph : s.phase with
  | idle => exact absurd hph hp
  | prefixWrite => simp only [pumpWrite, phaseCount, txData, phaseOffset, afterWrite, hph, Config.offPayload]
  | payloadWrite => simp only [pumpWrite, phaseCount, txData, phaseOffset, afterWrite, hph]
  | checksumWrite => simp only [pumpWrite, phaseCount, txData, phaseOffset, afterWrite, hph]

/-- Everything a step of a command in progress can do. -/
theorem tick_cases {s t : State} (h : tick s = .next t) :
    ∃ i k, s.current = some i ∧ frameKind i = some k ∧ payloadSize (s.pkt k) ≤ 1024 ∧ s.phase ≠ .idle ∧
      ((s.idx.toNat < phaseCount (s.pkt k) s.phase ∧ t = offerByte (txData k s) s) ∨
        (phaseCount (s.pkt k) s.phase ≤ s.idx.toNat ∧ t = afterWrite i k s)) := by
  cases hc : s.current with
  | none => simp [tick, hc] at h
  | some i =>
    cases hk : frameKind i with
    | none => simp [tick, hc, hk] at h
    | some k =>
      by_cases hn : payloadSize (s.pkt k) ≤ 1024
      · by_cases hp : s.phase = .idle
        · simp [tick, hc, hk, tickFrame, hp, show ¬ Config.maxPayload < payloadSize (s.pkt k) from Nat.not_lt.2 hn] at h
        · rw [tick_of hc hk hn hp] at h
          simp only [Host.Outcome.next.injEq] at h
          refine ⟨i, k, rfl, hk, hn, hp, ?_⟩
          by_cases hi : s.idx.toNat < phaseCount (s.pkt k) s.phase
          · rw [if_pos hi] at h; exact .inl ⟨hi, h.symm⟩
          · rw [if_neg hi] at h; exact .inr ⟨Nat.not_lt.1 hi, h.symm⟩
      · simp [tick, hc, hk, tickFrame, show Config.maxPayload < payloadSize (s.pkt k) from Nat.not_le.1 hn] at h

/-- A byte offered to the sink: it waits, or the byte joins the open write. -/
theorem offerByte_cases (b : Byte) (s : State) :
    (∃ rest, s.txReady = false :: rest ∧ offerByte b s = { s with txReady := rest }) ∨
    (∃ rest, (s.txReady = true :: rest ∨ s.txReady = [] ∧ rest = []) ∧
      offerByte b s = { s with txReady := rest, sink := extendLast s.sink b, idx := s.idx + 1 }) := by
  unfold offerByte
  split
  · rename_i h; exact .inr ⟨[], .inr ⟨h, rfl⟩, by simp [emitByte, h]⟩
  · rename_i rest h; exact .inr ⟨rest, .inl h, rfl⟩
  · rename_i rest h; exact .inl ⟨rest, h, rfl⟩

theorem extendLast_snoc (ws : List Write) (w : Write) (b : Byte) :
    extendLast (ws ++ [w]) b = ws ++ [{ count := w.count, bytes := w.bytes ++ [b] }] := by
  induction ws with
  | nil => rfl
  | cons x rest ih =>
    cases rest with
    | nil => rfl
    | cons y rest' =>
      rw [List.cons_append, List.cons_append, extendLast, ← List.cons_append, ih]
      rfl

/-- The index counts without wrapping inside a write (R25, C8). -/
theorem idx_succ {i : BitVec 11} (h : i.toNat < 1024) : (i + 1).toNat = i.toNat + 1 := by
  have h1 : (1 : BitVec 11).toNat = 1 := rfl
  rw [BitVec.toNat_add, h1]
  omega

theorem phaseCount_le {m : Mem} (hn : payloadSize m ≤ 1024) (ph : Phase) : phaseCount m ph ≤ 1024 := by
  cases ph <;> simp only [phaseCount] <;> omega

end Sys2Proof.Machine
end

