-- ==== Sys2Proof/Laws/Invariant.lean ====
section
/-! SUPPORT. The parts of the invariant as propositions, and the steps by which buffers, frames and the frame in
flight are kept good (spec/10_state.md R23, spec/41_framer_pack_send.md R146, R148). -/

namespace Sys2Proof.Machine

theorem packetsOk_iff {s : State} : packetsOk s = true ↔ ∀ k, packetOk (s.pkt k) = true := by
  simp only [packetsOk, allKinds, List.all_cons, List.all_nil, Bool.and_true, Bool.and_eq_true]
  constructor
  · rintro ⟨h1, h2, h3, h4, h5, h6⟩ k; cases k <;> assumption
  · intro h; exact ⟨h _, h _, h _, h _, h _, h _⟩

theorem packetOk_iff {m : Mem} : packetOk m = true ↔
    Mem.wf m = true ∧ Mem.within m 1032 = true ∧ payloadSize m ≤ 1024 ∧ (m = [] ∨ packed m = true) := by
  simp [packetOk, and_assoc]

/-- Replacing one good buffer by another keeps all six good. -/
theorem packetsOk_set {s t : State} {k : Kind} {m : Mem} (hs : packetsOk s = true) (hm : packetOk m = true)
    (ht : t.pkts = s.pkts.set k m) : packetsOk t = true := by
  rw [packetsOk_iff] at *
  intro j
  rw [State.pkt, ht]
  by_cases h : j = k
  · subst h; rw [Packets.get_set_same]; exact hm
  · rw [Packets.get_set_other _ _ _ _ h]; exact hs j

theorem packetsOk_congr {s t : State} (hs : packetsOk s = true) (ht : t.pkts = s.pkts) : packetsOk t = true := by
  rw [packetsOk_iff] at *
  intro j
  rw [State.pkt, ht]
  exact hs j

/-- What a PACK leaves is a good buffer (R23). -/
theorem packetOk_packedMem {m : Mem} {t : Half} {data : List Byte} (hm : packetOk m = true)
    (hl : data.length ≤ 1024) : packetOk (packedMem m t data.length data) = true := by
  obtain ⟨h1, h2, -, -⟩ := packetOk_iff.1 hm
  obtain ⟨-, -, f3, f4, f5, f6⟩ := (packedMem_packedAs (m := m) (t := t) hl).fields hl
  refine packetOk_iff.2 ⟨packedMem_wf h1, packedMem_within rfl hl h2, by omega, .inr ?_⟩
  simp only [packed, usedSpan, f3, f4, f5, f6, Config.hdrByte0, Config.hdrByte1, Config.offChecksum, Config.offPayload,
    beq_self_eq_true, Bool.and_self]

/-- The three writes of a good buffer are a good frame (R85, R146, R147). -/
theorem frameOk_of_packetOk {m : Mem} (hm : packetOk m = true) :
    frameOk { count := 6, bytes := readBytes m 0 6 }
      { count := payloadSize m, bytes := readBytes m 6 (payloadSize m) }
      { count := 2, bytes := readBytes m 1030 2 } = true := by
  obtain ⟨-, -, hn, hp⟩ := packetOk_iff.1 hm
  have hsize : (half ((readBytes m 0 6).getD 4 0) ((readBytes m 0 6).getD 5 0)).toNat = payloadSize m := rfl
  have hbody : ((readBytes m 0 6 == List.replicate 6 0 && readBytes m 1030 2 == List.replicate 2 0)
      || ((readBytes m 0 6).take 2 == [Config.hdrByte0, Config.hdrByte1]
        && readBytes m 1030 2 == le16 (crc16 (readBytes m 0 6 ++ readBytes m 6 (payloadSize m))))) = true := by
    rcases hp with rfl | hp
    · simp [readBytes, List.replicate]
    · simp only [packed, usedSpan, Bool.and_eq_true, beq_iff_eq, Config.offChecksum, Config.offPayload] at hp
      have h2 : (readBytes m 0 6).take 2 = [Config.hdrByte0, Config.hdrByte1] := by
        rw [← hp.1.1, ← hp.1.2]; rfl
      have h3 : readBytes m 1030 2 = le16 (crc16 (readBytes m 0 6 ++ readBytes m 6 (payloadSize m))) := by
        rw [readBytes_read16, hp.2, readBytes_append]
      rw [h2, h3]
      simp
  unfold frameOk
  rw [hsize, hbody]
  simp [hn]

theorem framesOk_append {ws : List Write} {w1 w2 w3 : Write} (h : framesOk ws = true)
    (hf : frameOk w1 w2 w3 = true) : framesOk (ws ++ [w1, w2, w3]) = true := by
  match ws with
  | [] => simp [framesOk, hf]
  | [_] => simp [framesOk] at h
  | [_, _] => simp [framesOk] at h
  | a :: b :: c :: rest =>
    simp only [framesOk, Bool.and_eq_true] at h
    simp only [List.cons_append, framesOk, Bool.and_eq_true]
    exact ⟨h.1, framesOk_append h.2 hf⟩

/-- The frame in flight when the last byte is out is a whole frame. -/
theorem framesOk_inFlight_end {ws : List Write} {m : Mem} (h : framesOk ws = true) (hm : packetOk m = true) :
    framesOk (ws ++ inFlight m .checksumWrite 2) = true :=
  framesOk_append h (frameOk_of_packetOk hm)

/-- One byte more of the frame in flight. -/
theorem extendLast_inFlight (ws : List Write) (m : Mem) (ph : Phase) (i : Nat) (hp : ph ≠ .idle) :
    extendLast (ws ++ inFlight m ph i) (Mem.read m (phaseOffset ph + i)) = ws ++ inFlight m ph (i + 1) := by
  cases ph with
  | idle => exact absurd rfl hp
  | prefixWrite => simp [inFlight, extendLast_snoc, readBytes_snoc, phaseOffset]
  | payloadWrite =>
    have h := extendLast_snoc (ws ++ [{ count := 6, bytes := readBytes m 0 6 }])
      { count := payloadSize m, bytes := readBytes m 6 i } (Mem.read m (6 + i))
    rw [← readBytes_snoc m 6 i] at h
    simpa [inFlight, phaseOffset] using h
  | checksumWrite =>
    have h := extendLast_snoc
      (ws ++ [{ count := 6, bytes := readBytes m 0 6 },
        { count := payloadSize m, bytes := readBytes m 6 (payloadSize m) }])
      { count := 2, bytes := readBytes m Config.offChecksum i } (Mem.read m (Config.offChecksum + i))
    rw [← readBytes_snoc m Config.offChecksum i] at h
    simpa [inFlight, phaseOffset] using h

/-- The mid-frame condition, said with the writes that came before the frame. -/
theorem midFrameOk_iff {s : State} : midFrameOk s = true ↔
    ∃ i k ws, s.current = some i ∧ frameKind i = some k ∧ s.phase ≠ .idle ∧
      s.idx.toNat ≤ phaseCount (s.pkt k) s.phase ∧ framesOk ws = true ∧
      s.sink = ws ++ inFlight (s.pkt k) s.phase s.idx.toNat := by
  unfold midFrameOk
  constructor
  · intro h
    split at h
    · exact absurd h (by simp)
    · rename_i k hb
      obtain ⟨i, hc, hk⟩ := Option.bind_eq_some_iff.1 hb
      simp only [Bool.and_eq_true, bne_iff_ne, ne_eq, decide_eq_true_eq, beq_iff_eq] at h
      obtain ⟨⟨⟨hp, hi⟩, hf⟩, hd⟩ := h
      refine ⟨i, k, _, hc, hk, hp, hi, hf, ?_⟩
      have h := List.take_append_drop (s.sink.length - (inFlight (s.pkt k) s.phase s.idx.toNat).length) s.sink
      rw [hd] at h
      exact h.symm
  · rintro ⟨i, k, ws, hc, hk, hp, hi, hf, hsink⟩
    have hb : s.current.bind frameKind = some k := by rw [hc]; exact hk
    simp only [hb]
    have hl : s.sink.length - (inFlight (s.pkt k) s.phase s.idx.toNat).length = ws.length := by
      rw [hsink]; simp
    rw [hl, hsink]
    simp [hp, hi, hf]

theorem boundaryOk_iff {s : State} : boundaryOk s = true ↔
    s.phase = .idle ∧ s.idx = 0 ∧ s.current = none ∧ s.recBuf = none ∧ framesOk s.sink = true := by
  simp [boundaryOk, and_assoc]

theorem clockOk_iff {s : State} : clockOk s = true ↔ 32 ≤ s.clockWidth := by
  rw [clockOk, decide_eq_true_iff]

theorem inv_iff {s : State} : s.inv = true ↔
    clockOk s = true ∧ packetsOk s = true ∧ sourceOk s.src = true ∧ hostOk s.host = true ∧ recordOk s = true ∧
      (if s.busy then midFrameOk s else boundaryOk s) = true := by
  simp [State.inv, and_assoc]

/-- What is left of a good host script is good. -/
theorem hostOk_cons {e : HostEvent} {rest : List HostEvent} (h : hostOk (e :: rest) = true) : hostOk rest = true := by
  simp only [hostOk, List.all_cons, Bool.and_eq_true] at h
  exact h.2

theorem hostOk_command {c : Command} {rest : List HostEvent} (h : hostOk (.command c :: rest) = true) :
    sourceOk c.src = true := by
  simp only [hostOk, List.all_cons, Bool.and_eq_true] at h
  exact h.1

end Sys2Proof.Machine
end

