-- ==== Sys2Proof/Laws/PerInstr.lean ====
section
/-! SUPPORT. One lemma per command: the word of its canonical encoding matches its row of the opcode table
(spec/30_encoding.md R97, R104). -/

namespace Sys2Proof.Laws.TableRow

/-- The word of a well-formed command matches the row of its mnemonic, mask and match value as the table has them. -/
def Statement (i : Instr) : Prop :=
  i.wellFormed = true → ∃ row ∈ opcodeTable, row.mnemonic = i.mnemonic ∧ row.matchesWord (encode i).cw = true

/-- A row matches the words the assembler makes with its opcode. -/
theorem matches_commandWord {row : OpcodeRow} {op pkt len : Nat} (sp : Bool) (ho : op < 256) (hp : pkt < 8)
    (hl : len < 65536) (hmask : row.mask = 0xFFF00000) (hbits : row.matchBits = BitVec.ofNat 32 (op * 2 ^ 24)) :
    row.matchesWord (commandWord op sp pkt len) = true := by
  rw [OpcodeRow.matchesWord, hmask, hbits, beq_iff_eq]
  exact (masked_eq_iff _ op ho).2 ⟨opField_commandWord sp ho hp hl, rsvField_commandWord sp ho hp hl⟩

theorem sendDate (day month year : Word) : Statement (.sendDate day month year) := fun _ =>
  ⟨⟨"SEND_DATE", 0x01000000, 0xFFF00000⟩, by decide, rfl,
    matches_commandWord false (by decide) (by decide) (by decide) rfl rfl⟩

theorem sendTime (hour : Byte) (minute second : Half) : Statement (.sendTime hour minute second) := fun _ =>
  ⟨⟨"SEND_TIME", 0x02000000, 0xFFF00000⟩, by decide, rfl,
    matches_commandWord false (by decide) (by decide) (by decide) rfl rfl⟩

theorem sendAdc (sampleCount : Word) (value : Half) : Statement (.sendAdc sampleCount value) := fun _ =>
  ⟨⟨"SEND_ADC", 0x03000000, 0xFFF00000⟩, by decide, rfl,
    matches_commandWord false (by decide) (by decide) (by decide) rfl rfl⟩

theorem sendText (sp : Bool) (len : Nat) : Statement (.sendText sp len) := fun h =>
  ⟨⟨"SEND_TEXT", 0x04000000, 0xFFF00000⟩, by decide, rfl,
    matches_commandWord sp (by decide) (by decide) (of_decide_eq_true h) rfl rfl⟩

theorem sendButton (buttonId : Byte) (state : Half) : Statement (.sendButton buttonId state) := fun _ =>
  ⟨⟨"SEND_BUTTON", 0x05000000, 0xFFF00000⟩, by decide, rfl,
    matches_commandWord false (by decide) (by decide) (by decide) rfl rfl⟩

theorem sendTemp (value : Half) : Statement (.sendTemp value) := fun _ =>
  ⟨⟨"SEND_TEMP", 0x06000000, 0xFFF00000⟩, by decide, rfl,
    matches_commandWord false (by decide) (by decide) (by decide) rfl rfl⟩

theorem crc16 (sp : Bool) (len : Nat) : Statement (.crc16 sp len) := fun h =>
  ⟨⟨"CRC16", 0x10000000, 0xFFF00000⟩, by decide, rfl,
    matches_commandWord sp (by decide) (by decide) (of_decide_eq_true h) rfl rfl⟩

theorem pack (pkt : Nat) (sp : Bool) (len : Nat) : Statement (.pack pkt sp len) := fun h =>
  have h2 := Bool.and_eq_true_iff.1 h
  ⟨⟨"PACK", 0x11000000, 0xFFF00000⟩, by decide, rfl,
    matches_commandWord sp (by decide) (of_decide_eq_true h2.1) (of_decide_eq_true h2.2) rfl rfl⟩

theorem send (pkt : Nat) : Statement (.send pkt) := fun h =>
  ⟨⟨"SEND", 0x12000000, 0xFFF00000⟩, by decide, rfl,
    matches_commandWord false (by decide) (of_decide_eq_true h) (by decide) rfl rfl⟩

theorem senddata (pkt : Nat) (sp : Bool) (len : Nat) : Statement (.senddata pkt sp len) := fun h =>
  have h2 := Bool.and_eq_true_iff.1 h
  ⟨⟨"SENDDATA", 0x13000000, 0xFFF00000⟩, by decide, rfl,
    matches_commandWord sp (by decide) (of_decide_eq_true h2.1) (of_decide_eq_true h2.2) rfl rfl⟩

end Sys2Proof.Laws.TableRow
end

