-- ==== Sys2Proof/Laws/Refinement.lean ====
section
/-! SUPPORT. The ends of a command and the steps of a frame in flight, as the invariant and the refinement need them
(spec/41_framer_pack_send.md R145, R148): what a PACK step keeps, and the run of the byte sequencer from an open write to
the end of its frame. -/

namespace Sys2Proof.Machine

/-- A PACK step leaves six good buffers. -/
theorem packetsOk_layOut {s : State} {k : Kind} {data : List Byte} (hp : packetsOk s = true) (hd : data.length ≤ 1024)
    (r : Option Mem) : packetsOk (layOut k data.length data { s with recBuf := r }) = true := by
  rw [layOut_eq _ _ _ _ rfl]
  exact packetsOk_set (k := k)
    (m := packedMem (s.pkt k) (trunc16 (clockRead { s with recBuf := r }).1) data.length data) hp
    (packetOk_packedMem (packetsOk_iff.1 hp k) hd) rfl

/-- What a PACK step leaves alone. -/
theorem layOut_keeps (k : Kind) (data : List Byte) (s : State) :
    (layOut k data.length data s).src = s.src ∧ (layOut k data.length data s).host = s.host ∧
    (layOut k data.length data s).sink = s.sink ∧ (layOut k data.length data s).phase = s.phase ∧
    (layOut k data.length data s).idx = s.idx ∧ (layOut k data.length data s).recBuf = s.recBuf ∧
    (layOut k data.length data s).busy = s.busy ∧ (layOut k data.length data s).current = s.current ∧
    (layOut k data.length data s).txReady = s.txReady ∧
    (layOut k data.length data s).clockWidth = s.clockWidth := by
  rw [layOut_eq _ _ _ _ rfl]
  simp

/-- The end of a command in a good state is a good state. -/
theorem inv_finish {s : State} {response : Response} {label : Option Reject} (hw : clockOk s = true)
    (hp : packetsOk s = true) (hs : sourceOk s.src = true) (hh : hostOk s.host = true) (hf : framesOk s.sink = true) (h1 : s.phase = .idle)
    (h2 : s.idx = 0) : (finish response label s).inv = true := by
  rw [inv_iff]
  refine ⟨hw, packetsOk_congr hp rfl, hs, hh, rfl, ?_⟩
  simp only [finish, Bool.false_eq_true, if_false]
  exact boundaryOk_iff.2 ⟨h1, h2, rfl, rfl, hf⟩

/-- The end of a command that has sent the frame of a good buffer. -/
theorem inv_finish_sendStep {s : State} {k : Kind} {response : Response} (hw : clockOk s = true)
    (hp : packetsOk s = true) (hs : sourceOk s.src = true) (hh : hostOk s.host = true) (hf : framesOk s.sink = true) :
    (finish response none (sendStep k s)).inv = true := by
  rw [sendStep_eq]
  exact inv_finish hw (packetsOk_congr hp rfl) hs hh (framesOk_append hf (frameOk_of_packetOk (packetsOk_iff.1 hp k)))
    rfl rfl

/-- How much the sequencer still has to do before its frame is out, in steps in which the sink accepts. -/
def stepsLeft (n : Nat) (ph : Phase) (i : Nat) : Nat :=
  match ph with
  | .idle => 0
  | .prefixWrite => (6 - i) + 1 + n + 1 + 3
  | .payloadWrite => (n - i) + 1 + 3
  | .checksumWrite => (2 - i) + 1

/-- The state when the frame of `PKT[k]` is out and the sink's script of readiness is forgotten; `ws` are the writes
before the frame. -/
def afterFrameOut (i : Instr) (k : Kind) (ws : List Write) (s : State) : State :=
  finish (frameResponse i) none
    { s with phase := .idle, idx := 0, txReady := [], sink := ws ++ inFlight (s.pkt k) .checksumWrite 2 }

/-- A step of the byte-level machine in mid-frame with nothing on the port. -/
theorem byteStep_midFrame {s : State} {i : Instr} {k : Kind} (hb : s.busy = true) (hh : s.host = [])
    (hc : s.current = some i) (hk : frameKind i = some k) (hn : payloadSize (s.pkt k) ≤ 1024) (hp : s.phase ≠ .idle) :
    byteStep s = .next (if s.idx.toNat < phaseCount (s.pkt k) s.phase then offerByte (txData k s) s
      else afterWrite i k s) := by
  rw [byteStep, stepWith, hb, if_pos rfl, busyStep, hh]
  exact tick_of hc hk hn hp

/-- One step put in front of a run. -/
theorem byteRun_succ {s t : State} (n : Nat) (h : byteStep s = .next t) : byteRun (n + 1) s = byteRun n t := by
  rw [byteRun, h]

end Sys2Proof.Machine
end

