-- ==== Sys2Proof/Tests/Slice0.lean ====
section
/-! SUPPORT. Small tests: well-formedness, decoding of words written out from spec/30_encoding.md R82 and R97, the test
vectors of spec/95_test_vectors.md one command at a time, and for every obligation with hypotheses a state and operands
that meet them. -/

namespace Sys2Proof.Machine.Tests

/-! ### Helpers -/

/-- The state after reset with one command on the port, a source buffer and what the clock will answer. -/
def presented (cw a b c : Word) (source : List Byte) (clock : List Nat) : State :=
  { State.reset with
    host := [.command { words := { cw := cw, a := a, b := b, c := c }, src := writeBytes [] 0 source }]
    clock := clock }

/-- The next state, if there is one. -/
def ran : Outcome → Option State
  | .next t => some t
  | .fault _ => none
  | .refused _ => none

/-- The writes and the last report of the next state. -/
def sent (o : Outcome) : Option (List (List Byte) × Option Report) :=
  (ran o).map (fun t => (t.sink.map Write.bytes, t.reports.getLast?))

/-- A report without a label. -/
def done (r : Response) : Option Report := some { response := r, label := none }

/-- A report with a label. -/
def turnedAway (r : Response) (why : Reject) : Option Report := some { response := r, label := some why }

/-- `PKT[6]` as vector V17 leaves it. -/
def packetV17 : Mem :=
  writeBytes (writeBytes [] 0 [0xDE, 0xAB, 0x78, 0x56, 0x03, 0x00, 0x06, 0x19, 0x00]) 1030 [0xCB, 0x3E]

/-- A `SEND p6` of that buffer in mid-frame: byte `i` of the write of phase `ph` is next. -/
def midFrame (ph : Phase) (i : Nat) (txReady : List Bool) (host : List HostEvent) : State :=
  { State.reset with
    pkts := { Packets.zero with p6 := packetV17 }
    phase := ph
    idx := BitVec.ofNat 11 i
    busy := true
    sink := inFlight packetV17 ph i
    current := some (.send 6)
    host := host
    txReady := txReady }

/-- A buffer whose `payload_size` field reads `n`. -/
def sizedBuffer (n : Half) : Mem := write16 [] 4 n

/-- The state after reset with `PKT[1]` such a buffer. -/
def sized (n : Half) : State := { State.reset with pkts := { Packets.zero with p1 := sizedBuffer n } }

/-- The command words `A = B = C = 0` with command word `cw`, without a source buffer. -/
def bare (cw : Word) : Command := { words := { cw := cw, a := 0, b := 0, c := 0 }, src := [] }

/-! ### Well-formedness (R82) -/

theorem test_handle_8_is_ill_formed : (Instr.send 8).wellFormed = false ∧ handleFits 8 = false := by decide

theorem test_length_65536_is_ill_formed : (Instr.crc16 true 65536).wellFormed = false ∧ lengthFits 65536 = false := by
  decide

theorem test_pack_checks_both_fields :
    (Instr.pack 8 true 0).wellFormed = false ∧ (Instr.pack 1 true 65536).wellFormed = false ∧
      (Instr.pack 7 true 65535).wellFormed = true := by decide

theorem test_senddata_checks_both_fields :
    (Instr.senddata 8 true 0).wellFormed = false ∧ (Instr.senddata 1 true 65536).wellFormed = false ∧
      (Instr.sendText true 65536).wellFormed = false := by decide

/-! ### Decoding: the 32 bits of CW written out as `op rsv sp pkt len` (R82, R97) -/

theorem test_decode_send_date :
    decode ⟨0b00000001_0000_0_000_0000000000000000, 10, 11, 2026⟩ = .command (.sendDate 10 11 2026) := by decide

theorem test_decode_send_time :
    decode ⟨0b00000010_0000_0_000_0000000000000000, 23, 59, 58⟩ = .command (.sendTime 23 59 58) := by decide

theorem test_decode_send_adc :
    decode ⟨0b00000011_0000_0_000_0000000000000000, 0x01020304, 0x0ABC, 0⟩
      = .command (.sendAdc 0x01020304 0x0ABC) := by decide

theorem test_decode_send_text :
    decode ⟨0b00000100_0000_1_000_0000000000000101, 0, 0, 0⟩ = .command (.sendText true 5) := by decide

theorem test_decode_send_button :
    decode ⟨0b00000101_0000_0_000_0000000000000000, 2, 1, 0⟩ = .command (.sendButton 2 1) := by decide

theorem test_decode_send_temp_ignores_fields :
    decode ⟨0b00000110_0000_1_111_0001001000110100, 0x00010019, 0, 0⟩ = .command (.sendTemp 0x0019) := by decide

theorem test_decode_crc16 :
    decode ⟨0b00010000_0000_1_000_0000000000001001, 0, 0, 0⟩ = .command (.crc16 true 9) := by decide

theorem test_decode_pack :
    decode ⟨0b00010001_0000_1_011_0000000000000011, 0, 0, 0⟩ = .command (.pack 3 true 3) := by decide

theorem test_decode_send :
    decode ⟨0b00010010_0000_0_011_0000000000000000, 0, 0, 0⟩ = .command (.send 3) := by decide

theorem test_decode_senddata :
    decode ⟨0b00010011_0000_0_010_0000000000000010, 0, 0, 0⟩ = .command (.senddata 2 false 2) := by decide

theorem test_decode_table_word :
    decodeTableWord 32 0x110BFFFF = some (.pack 3 true 65535) ∧ decodeTableWord 32 0x12830000 = none ∧
      decodeTableWord 32 0x14000000 = none := by decide

theorem test_encode_pack : (encode (.pack 3 true 3)).cw = 0x110B0003 := by decide

theorem test_asm_pack : Instr.asm (.pack 3 true 3) = "PACK p3, src, 3" := by decide

theorem test_fetch_word_runs_first :
    (ran (step (State.reset.withFetchWord 32 0x12020000))).map (fun t => t.sink.map Write.bytes)
      = some [[0, 0, 0, 0, 0, 0], [], [0, 0]] := by decide

/-! ### The checksum (V1, V3, V4) -/

theorem test_crc_byte : crcByte 0xFFFF 0x01 = 0x807E ∧ crcByte 0xFFFF 0x41 = 0x707F := by decide

theorem test_crc_bit_steps_v3 :
    (List.range 8).map (fun n => crcBits (n + 1) 0xFFBE)
      = [0x7FDF, 0x9FEE, 0x4FF7, 0x87FA, 0x43FD, 0x81FF, 0xE0FE, 0x707F] := by decide

set_option maxRecDepth 4000 in
theorem test_crc_residue_v4 :
    crc16 [0xDE, 0xAB, 0x78, 0x56, 0x03, 0x00, 0x06, 0x19, 0x00, 0xCB, 0x3E] = 0x0000 ∧
      crc16 [0xDE, 0xAB, 0x78, 0x56, 0x03, 0x00, 0x06, 0x19, 0x00, 0x3E, 0xCB] = 0x1787 := by decide

/-! ### One command at a time -/

set_option maxRecDepth 10000 in
/-- V10, the extreme values. -/
theorem test_send_date_v10 :
    sent (step (presented 0x01000000 0xFFFFFFFF 0 0x80000000 [] [0xFFFFFFFF]))
      = some ([[0xDE, 0xAB, 0xFF, 0xFF, 0x0D, 0x00],
          [0x01, 0xFF, 0xFF, 0xFF, 0xFF, 0, 0, 0, 0, 0, 0, 0, 0x80], [0x4C, 0x4A]], done .noResult) := by decide

set_option maxRecDepth 4000 in
/-- V23: the upper bits of the operand words are ignored. -/
theorem test_send_time_v23 :
    sent (step (presented 0x02000000 0x12345617 0xABCD003B 0xFFFF003A [] [0x00010000]))
      = some ([[0xDE, 0xAB, 0, 0, 6, 0], [0x02, 0x17, 0x3B, 0x00, 0x3A, 0x00], [0x82, 0x02]], done .noResult) := by
  decide

set_option maxRecDepth 4000 in
/-- V12. -/
theorem test_send_adc_v12 :
    sent (step (presented 0x03000000 0x01020304 0x0ABC 0 [] [1000]))
      = some ([[0xDE, 0xAB, 0xE8, 0x03, 0x07, 0x00], [0x03, 0x04, 0x03, 0x02, 0x01, 0xBC, 0x0A], [0x31, 0x49]],
          done .noResult) := by decide

set_option maxRecDepth 4000 in
/-- V13. -/
theorem test_send_text_v13 :
    sent (step (presented 0x04080005 0 0 0 [0x48, 0x65, 0x6C, 0x6C, 0x6F] [0xFFFF]))
      = some ([[0xDE, 0xAB, 0xFF, 0xFF, 0x08, 0x00], [0x04, 0x05, 0x00, 0x48, 0x65, 0x6C, 0x6C, 0x6F], [0x0D, 0x1D]],
          done .noResult) := by decide

set_option maxRecDepth 20000 in
/-- V18: the shortest text that is dropped. -/
theorem test_send_text_v18 :
    sent (step (presented 0x040803FE 0 0 0 [0x55] [7])) = some ([], turnedAway .noResult .tooLong) := by decide

set_option maxRecDepth 4000 in
/-- V23. -/
theorem test_send_button_v23 :
    sent (step (presented 0x05000000 0x000001FF 0x00012345 0 [] [5]))
      = some ([[0xDE, 0xAB, 0x05, 0, 4, 0], [0x05, 0xFF, 0x45, 0x23], [0x1C, 0x62]], done .noResult) := by decide

set_option maxRecDepth 4000 in
/-- V17. -/
theorem test_send_temp_v17 :
    sent (step (presented 0x06000000 0x00000019 0 0 [] [0x12345678]))
      = some ([[0xDE, 0xAB, 0x78, 0x56, 0x03, 0x00], [0x06, 0x19, 0x00], [0xCB, 0x3E]], done .noResult) := by decide

set_option maxRecDepth 4000 in
/-- V2. -/
theorem test_crc16_v2 :
    sent (step (presented 0x10080009 0 0 0 [0x31, 0x32, 0x33, 0x34, 0x35, 0x36, 0x37, 0x38, 0x39] []))
      = some ([], done (.checksum 0x4B37)) := by decide

/-- V5: an absent source. -/
theorem test_crc16_v5 :
    sent (step (presented 0x10000004 0 0 0 [] [])) = some ([], turnedAway (.status false) .noSource) ∧
      sent (step (presented 0x10000000 0 0 0 [] [])) = some ([], done (.checksum 0xFFFF)) := by decide

set_option maxRecDepth 4000 in
/-- V6. -/
theorem test_pack_v6 :
    (ran (step (presented 0x110B0003 0 0 0 [1, 2, 3] [0x0102, 7]))).map
        (fun t => (readBytes t.pkts.p3 0 10, readBytes t.pkts.p3 1030 2, t.sink, t.clock))
      = some ([0xDE, 0xAB, 0x02, 0x01, 0x03, 0x00, 1, 2, 3, 0], [0xE6, 0x2E], [], [7]) := by decide

/-- V9: the label of `PACK p0, nosrc, 2000` is the first in the order of R203; the clock is not read. -/
theorem test_pack_v9 :
    (ran (step (presented 0x110007D0 0 0 0 [] [7]))).map (fun t => (t.reports, t.clock))
      = some ([{ response := .status false, label := some .noPacket }], [7]) := by decide

/-- V20. -/
theorem test_send_v20 :
    sent (step (presented 0x12020000 0 0 0 [] [])) = some ([[0, 0, 0, 0, 0, 0], [], [0, 0]], done (.status true)) := by
  decide

set_option maxRecDepth 20000 in
/-- P1, second command, on the buffer of V17. -/
theorem test_send_packed :
    sent (exec (.send 6) { State.reset with pkts := { Packets.zero with p6 := packetV17 } })
      = some ([[0xDE, 0xAB, 0x78, 0x56, 0x03, 0x00], [0x06, 0x19, 0x00], [0xCB, 0x3E]], done (.status true)) := by
  decide

set_option maxRecDepth 4000 in
/-- V19, the accepted edge. -/
theorem test_senddata_v19_one_byte :
    sent (step (presented 0x13090001 0 0 0 [0xFF] [0]))
      = some ([[0xDE, 0xAB, 0, 0, 1, 0], [0xFF], [0x2D, 0x56]], done .noResult) := by decide

/-- V19, rejected: zero size, and 1025 bytes. -/
theorem test_senddata_v19_rejected :
    sent (step (presented 0x130A0000 0 0 0 [1] [0])) = some ([], turnedAway .noResult .zeroSize) ∧
      sent (step (presented 0x130A0401 0 0 0 [1] [0])) = some ([], turnedAway .noResult .tooLong) := by decide

/-- V24. -/
theorem test_reserved_v24 :
    sent (step (presented 0x0F000000 0 0 0 [] [])) = some ([], turnedAway .noResult .reserved) ∧
      sent (step (presented 0x11FB0003 0 0 0 [] [])) = some ([], turnedAway .noResult .reserved) := by decide

/-- R27, R84, R200: what a rejected PACK drives onto the response port, and the code of its label. -/
theorem test_response_bits :
    (Response.status false).hasResult = true ∧ (Response.status false).ok = false ∧
      (Response.checksum 0x4B37).crcBits = 0x4B37 ∧ Reject.tooLong.code = 4 ∧ Config.rateHz.length = Config.nKind := by
  decide

/-! ### The byte sequencer (R148, R149) -/

set_option maxRecDepth 20000 in
/-- A sink that refuses one byte holds the sequencer one step. -/
theorem test_sequencer_waits :
    (ran (step (midFrame .payloadWrite 1 [false] []))).map (fun t => (t.idx, t.sink.map Write.bytes))
      = some (1, [[0xDE, 0xAB, 0x78, 0x56, 0x03, 0x00], [0x06]]) := by decide

set_option maxRecDepth 20000 in
/-- The byte at `idx` of the payload of V17. -/
theorem test_sequencer_emits :
    (ran (step (midFrame .payloadWrite 1 [true] []))).map (fun t => (t.idx, t.sink.map Write.bytes))
      = some (2, [[0xDE, 0xAB, 0x78, 0x56, 0x03, 0x00], [0x06, 0x19]]) := by decide

set_option maxRecDepth 20000 in
/-- R231: reset in mid-frame leaves what was sent on the wire and gives no response. -/
theorem test_reset_in_mid_frame :
    (ran (step (midFrame .payloadWrite 1 [] [.reset]))).map (fun t => (wire t, t.busy, t.pkts, t.reports))
      = some ([0xDE, 0xAB, 0x78, 0x56, 0x03, 0x00, 0x06], false, Packets.zero, []) := by decide

/-! ### Witnesses: encoding and the step -/

theorem test_witness_well_formed :
    (Instr.sendText true 65535).wellFormed = true ∧ (Instr.crc16 true 65535).wellFormed = true ∧
      (Instr.pack 7 true 65535).wellFormed = true ∧ (Instr.send 7).wellFormed = true ∧
      (Instr.senddata 0 false 0).wellFormed = true := by decide

theorem test_witness_unused_fields :
    (7 : Nat) < 8 ∧ (65535 : Nat) < 65536 ∧ decode ⟨commandWord 0x12 true 7 65535, 1, 2, 3⟩ = .command (.send 7) := by
  decide

theorem test_witness_reserved :
    (∀ op ∈ ([0x00, 0x07, 0x0F, 0x14, 0xFF] : List Nat),
        op ∉ ([0x01, 0x02, 0x03, 0x04, 0x05, 0x06, 0x10, 0x11, 0x12, 0x13] : List Nat)) ∧
      (0x14000000#32).extractLsb' 24 8 = 0x14 ∧ (0x12100000#32).extractLsb' 20 4 ≠ 0 ∧
      (presented 0x14000000 0 0 0 [] []).busy = false ∧
      (presented 0x14000000 0 0 0 [] []).host = [.command (bare 0x14000000)] := by decide

theorem test_witness_step_runs :
    (presented 0x12020000 0 0 0 [] []).busy = false ∧
      (presented 0x12020000 0 0 0 [] []).host = [.command (bare 0x12020000)] ∧
      decode (bare 0x12020000).words = .command (.send 2) := by decide

set_option maxRecDepth 20000 in
theorem test_witness_busy :
    (midFrame .payloadWrite 1 [] [.command (bare 0)]).busy = true ∧
      (ran (step (midFrame .payloadWrite 1 [] [.command (bare 0)]))).map (fun t => t.busy) = some true ∧
      (ran (step (midFrame .checksumWrite 2 [] [.command (bare 0)]))).map (fun t => t.busy) = some false := by decide

/-! ### Witnesses: CRC16, PACK, SEND, SENDDATA -/

theorem test_witness_crc16 : (65535 : Nat) < 65536 ∧ (0 : Nat) < 65536 ∧ 0 < 1 := by decide

theorem test_witness_present_handle :
    handleKind 1 = some .date ∧ handleKind 6 = some .mcuTemperature ∧ 0 ≤ 1024 ∧ 1024 ≤ 1024 := by decide

theorem test_witness_absent_handle :
    handleKind 0 = none ∧ handleKind 7 = none ∧ 1024 < 1025 ∧ (7 = 0 ∨ 7 = 7) ∧ 65535 < 65536 := by decide

theorem test_witness_stored_size :
    payloadSize ((sized 1024).pkt .date) = 1024 ∧ payloadSize (State.reset.pkt .date) = 0 := by decide

/-- Two buffers that agree on what a SEND sends and not on a stale byte. -/
theorem test_witness_stale :
    readBytes [] 0 6 = readBytes [(9, 0xCC)] 0 6 ∧ readBytes [] 1030 2 = readBytes [(9, 0xCC)] 1030 2 ∧
      payloadSize ([] : Mem) = payloadSize [(9, 0xCC)] ∧ Mem.read [] 9 ≠ Mem.read [(9, 0xCC)] 9 := by decide

theorem test_witness_unpacked : ∀ a < 1032, Mem.read (State.reset.pkt .date) a = 0 := fun _ _ => rfl

theorem test_witness_oversized :
    handleKind 1 = some .date ∧ payloadSize ((sized 1025).pkt .date) = 1025 ∧
      ran (exec (.send 1) (sized 1025)) = none := by decide

theorem test_witness_repeated_send : (sized 0).pkts = (sized 0).pkts ∧ handleKind 3 = some .adcSample := by decide

theorem test_witness_senddata_rejected :
    handleKind 7 = none ∧ (1024 : Nat) < 1025 ∧ 1 ≤ 1 ∧ 1 ≤ 1024 := by decide

theorem test_witness_record :
    recordOf (.sendTemp 25) State.reset = some (.mcuTemperature, [0x06, 0x19, 0x00]) ∧
      readBytes (writeBytes [] 0 [0x06, 0x19, 0x00]) 0 3 = [0x06, 0x19, 0x00] ∧ (3 : Nat) ≤ 1024 := by decide

set_option maxRecDepth 20000 in
/-- The longest text whose record fits, and its record. -/
theorem test_witness_longest_text :
    (recordOf (.sendText true 1021) State.reset).map (fun r => r.2.length) = some 1024 ∧ 1021 ≤ 1021 ∧
      ¬ (1022 : Nat) ≤ 1021 := by decide

/-! ### Witnesses: memory and whole-machine rules -/

theorem test_witness_canonical :
    Mem.wf [(5, 1), (9, 2)] = true ∧ Mem.wf [(5, 0)] = false ∧ Mem.wf [(9, 2), (5, 1)] = false := by decide

theorem test_witness_rejection :
    exec (.pack 0 true 3) State.reset = .next (afterReject .noPacket (.status false) State.reset) ∧
      (afterReject .noPacket (.status false) State.reset).reports
        = State.reset.reports ++ [{ response := .status false, label := some .noPacket }] := ⟨rfl, rfl⟩

theorem test_witness_responses :
    sent (exec (.send 2) State.reset) = some ([[0, 0, 0, 0, 0, 0], [], [0, 0]], done (.status true)) ∧
      sent (exec (.crc16 true 0) State.reset) = some ([], done (.checksum 0xFFFF)) ∧
      sent (exec (.pack 1 false 0) State.reset) = some ([], turnedAway (.status false) .noSource) ∧
      sent (exec (.senddata 1 true 0) State.reset) = some ([], turnedAway .noResult .zeroSize) := by decide

theorem test_witness_clock_bits :
    65535 % 65536 = 131071 % 65536 ∧ 0 % 65536 = 65536 % 65536 ∧ 16 ≤ 16 ∧ 16 ≤ 64 := by decide

/-- R6: the largest number of the default width is answered as it is; a bus of 40 bits carries more. -/
theorem test_witness_clock_width :
    (ran (step State.reset)).map (fun t => t.clockWidth) = some 32 ∧ 2 ^ 32 - 1 < 2 ^ State.reset.clockWidth ∧
      (clockRead { State.reset with clock := [2 ^ 32 - 1] }).1 = 2 ^ 32 - 1 ∧
      (clockRead { State.reset with clock := [2 ^ 32 + 5] }).1 = 5 ∧
      (clockRead { State.reset with clockWidth := 40, clock := [2 ^ 32 + 5] }).1 = 2 ^ 32 + 5 := by decide

theorem test_witness_ends : (Instr.send 1).wellFormed = true ∧ ∀ k, payloadSize (State.reset.pkt k) ≤ 1024 :=
  ⟨rfl, fun k => by cases k <;> decide⟩

/-! ### Witnesses: the sequencer, the invariant, reset, inspection -/

set_option maxRecDepth 20000 in
theorem test_witness_refinement :
    (presented 0x04080001 0 0 0 [0x41] [1]).inv = true ∧ (presented 0x04080001 0 0 0 [0x41] [1]).busy = false ∧
      (presented 0x04080001 0 0 0 [0x41] [1]).host
        = [.command { words := { cw := 0x04080001, a := 0, b := 0, c := 0 }, src := [(0, 0x41)] }] := by decide

set_option maxRecDepth 20000 in
theorem test_witness_sink :
    (midFrame .payloadWrite 2 [true] []).busy = true ∧ (midFrame .payloadWrite 2 [true] []).host = [] ∧
      (midFrame .payloadWrite 2 [true] []).current = some (.send 6) ∧ payloadSize packetV17 = 3 ∧
      txValid .mcuTemperature (midFrame .payloadWrite 2 [true] []) = true ∧
      frameKind (.send 6) = some .mcuTemperature ∧
      (midFrame .payloadWrite 2 [true] []).sink
        = [{ count := 6, bytes := readBytes packetV17 0 6 }] ++ [{ count := 3, bytes := [0x06, 0x19] }] := by decide

set_option maxRecDepth 20000 in
theorem test_witness_writes_in_order :
    txValid .mcuTemperature (midFrame .prefixWrite 6 [] []) = false ∧
      txValid .mcuTemperature (midFrame .payloadWrite 3 [] []) = false ∧
      txValid .mcuTemperature (midFrame .checksumWrite 2 [] []) = false ∧
      txValid .mcuTemperature (midFrame .checksumWrite 1 [] []) = true := by decide

set_option maxRecDepth 20000 in
/-- The invariant holds in mid-frame states, and a step from them goes on. -/
theorem test_witness_invariant :
    (midFrame .payloadWrite 1 [] []).inv = true ∧ (midFrame .checksumWrite 2 [] []).inv = true ∧
      (ran (step (midFrame .payloadWrite 1 [] []))).map State.inv = some true ∧
      (ran (byteStep (midFrame .checksumWrite 2 [] []))).map State.inv = some true := by decide

theorem test_witness_reset :
    (midFrame .payloadWrite 1 [] [.reset]).host = [.reset] ∧ (midFrame .payloadWrite 1 [] [.reset]).busy = true := by
  decide

theorem test_witness_inspection :
    (ran (step { State.reset with host := [.inspect 1 0] })).map (fun t => t.inspected) = some [0] ∧
      (ran (step { State.reset with
          host := [.inspect 6 1031]
          pkts := { Packets.zero with p6 := [(1031, 0x3E)] } })).map (fun t => t.inspected) = some [0x3E] ∧
      ran (step { State.reset with host := [.inspect 1 1032] }) = none ∧
      ran (step { State.reset with host := [.inspect 0 0] }) = none ∧
      ran (step { State.reset with host := [.inspect 7 0] }) = none ∧
      ran (step (midFrame .payloadWrite 1 [] [.inspect 1 0])) = none := by decide

end Sys2Proof.Machine.Tests
end

section
/-! PROOFS. What one step of either machine can do, said once (`stepWith_stepped`; spec/30_encoding.md R81,
spec/10_state.md R37, spec/70_reset_and_hazards.md R231). -/

namespace Sys2Proof.Machine

/-- How a step from state `s` can go on to a next state, given how an accepted command is run. -/
inductive Stepped (run : Instr → State → Outcome) (s : State) : State → Prop
  /-- `rst`, whether the block is busy or idle (R230, R231) -/
  | reset (rest : List HostEvent) (hh : s.host = .reset :: rest) : Stepped run s (hostReset rest s)
  /-- an idle block, and the host's script has run out -/
  | quiet (hb : s.busy = false) (hh : s.host = []) : Stepped run s s
  /-- an idle block with nothing presented -/
  | idle (rest : List HostEvent) (hb : s.busy = false) (hh : s.host = .idle :: rest) :
      Stepped run s { s with host := rest }
  /-- an inspection inside the port's contract (R37) -/
  | inspected (k : BitVec 3) (a : BitVec 11) (rest : List HostEvent) (hb : s.busy = false)
      (hh : s.host = .inspect k a :: rest) (kind : Kind) (hk : handleKind k.toNat = some kind)
      (ha : a.toNat < Config.pktBytes) :
      Stepped run s { s with host := rest, inspected := s.inspected ++ [Mem.read (s.pkt kind) a.toNat] }
  /-- a reserved encoding (R99, R100) -/
  | reserved (c : Command) (rest : List HostEvent) (hb : s.busy = false) (hh : s.host = .command c :: rest)
      (why : ReservedReason) (hd : decode c.words = .reserved why) :
      Stepped run s (reject .reserved .noResult (acceptCommand c none rest s))
  /-- a command that is accepted and run (R81) -/
  | ran (c : Command) (rest : List HostEvent) (hb : s.busy = false) (hh : s.host = .command c :: rest) (i : Instr)
      (hd : decode c.words = .command i) (t : State) (ht : run i (acceptCommand c (some i) rest s) = .next t) :
      Stepped run s t
  /-- a command in progress goes on; a command that waits on the port stays there (R81, R148) -/
  | ticked (rest : List HostEvent) (hb : s.busy = true)
      (hh : s.host = .idle :: rest ∨ s.host = rest ∧ (rest = [] ∨ ∃ c later, rest = .command c :: later)) (t : State)
      (ht : tick { s with host := rest } = .next t) : Stepped run s t

/-- A step that inspects a Packet stays inside the port's contract and shows the byte asked for (R37). -/
theorem inspectPort_next {k : BitVec 3} {a : BitVec 11} {rest : List HostEvent} {s t : State}
    (h : inspectPort k a rest s = .next t) :
    ∃ kind, handleKind k.toNat = some kind ∧ a.toNat < Config.pktBytes ∧
      t = { s with host := rest, inspected := s.inspected ++ [Mem.read (s.pkt kind) a.toNat] } := by
  unfold inspectPort at h
  cases hk : handleKind k.toNat with
  | none => simp [hk] at h
  | some kind =>
    simp only [hk] at h
    split at h
    · rename_i ha
      exact ⟨kind, rfl, ha, (Host.Outcome.next.inj h).symm⟩
    · cases h

/-- Everything a step with `busy = 0` can do. -/
theorem idleStep_stepped {run : Instr → State → Outcome} {s t : State} (hb : s.busy = false)
    (h : idleStep run s = .next t) : Stepped run s t := by
  unfold idleStep at h
  split at h
  case h_1 hh => cases h; exact .quiet hb hh
  case h_2 rest hh => cases h; exact .idle rest hb hh
  case h_3 rest hh => cases h; exact .reset rest hh
  case h_4 k a rest hh =>
    obtain ⟨kind, hk, ha, rfl⟩ := inspectPort_next h
    exact .inspected k a rest hb hh kind hk ha
  case h_5 c rest hh =>
    unfold runCommand at h
    cases hd : decode c.words with
    | command i => rw [hd] at h; exact .ran c rest hb hh i hd t h
    | reserved why => rw [hd] at h; cases h; exact .reserved c rest hb hh why hd

/-- Everything a step with `busy = 1` can do. -/
theorem busyStep_stepped {run : Instr → State → Outcome} {s t : State} (hb : s.busy = true)
    (h : busyStep s = .next t) : Stepped run s t := by
  unfold busyStep at h
  split at h
  case h_1 hh => exact .ticked s.host hb (.inr ⟨rfl, .inl hh⟩) t h
  case h_2 rest hh => exact .ticked rest hb (.inl hh) t h
  case h_3 rest hh => cases h; exact .reset rest hh
  case h_4 => cases h
  case h_5 c later hh => exact .ticked s.host hb (.inr ⟨rfl, .inr ⟨c, later, hh⟩⟩) t h

/-- Everything one step can do, in either machine. -/
theorem stepWith_stepped {run : Instr → State → Outcome} {s t : State} (h : stepWith run s = .next t) :
    Stepped run s t := by
  unfold stepWith at h
  split at h
  · rename_i hb; exact busyStep_stepped hb h
  · rename_i hb; exact idleStep_stepped (Bool.eq_false_iff.2 hb) h

end Sys2Proof.Machine
end

section
/-! PROOFS. `CLOCK_WIDTH` is a parameter of the machine (spec/00_scope.md R6): every operation, and so every step of
either machine, leaves it alone. -/

namespace Sys2Proof.Machine

/-! ### What the operations leave -/

@[simp] theorem clockWidth_hostReset (rest : List HostEvent) (s : State) :
    (hostReset rest s).clockWidth = s.clockWidth := rfl

@[simp] theorem clockWidth_layOut (k : Kind) (len : Nat) (data : List Byte) (s : State) :
    (layOut k len data s).clockWidth = s.clockWidth := by
  simp [layOut]

@[simp] theorem clockWidth_sendStep (k : Kind) (s : State) : (sendStep k s).clockWidth = s.clockWidth := by
  rw [sendStep_eq]

@[simp] theorem clockWidth_offerByte (b : Byte) (s : State) : (offerByte b s).clockWidth = s.clockWidth := by
  rcases offerByte_cases b s with ⟨rest, -, e⟩ | ⟨rest, -, e⟩ <;> rw [e]

@[simp] theorem clockWidth_afterWrite (i : Instr) (k : Kind) (s : State) :
    (afterWrite i k s).clockWidth = s.clockWidth := by
  unfold afterWrite
  cases s.phase <;> rfl

/-! ### What a command leaves -/

/-- A begun command that ended. -/
theorem clockWidth_of_ended {i : Instr} {s t : State} (h : beginCommand i s = .ended t) :
    t.clockWidth = s.clockWidth := by
  have hb := beginCommand_began i s
  rw [h] at hb
  cases hb with
  | rejected why => simp
  | checksum sp len hi v => simp
  | packed pkt sp len hi k hk data hd => simp

/-- A begun command that is about to emit a frame. -/
theorem clockWidth_of_framing {i : Instr} {k : Kind} {s t : State} (h : beginCommand i s = .framing k t) :
    t.clockWidth = s.clockWidth := by
  have hb := beginCommand_began i s
  rw [h] at hb
  cases hb with
  | sending pkt hi hk hn => rfl
  | framed hf hp hr data h0 hd r hrec => simp

theorem clockWidth_of_exec {i : Instr} {s t : State} (h : exec i s = .next t) : t.clockWidth = s.clockWidth := by
  rw [exec_eq_runWhole] at h
  cases hb : beginCommand i s with
  | ended u => rw [hb] at h; cases h; exact clockWidth_of_ended hb
  | framing k u => rw [hb] at h; cases h; simp [clockWidth_of_framing hb]
  | stopped f => rw [hb] at h; cases h

theorem clockWidth_of_execBytes {i : Instr} {s t : State} (h : execBytes i s = .next t) :
    t.clockWidth = s.clockWidth := by
  unfold execBytes at h
  cases hb : beginCommand i s with
  | ended u => rw [hb] at h; cases h; exact clockWidth_of_ended hb
  | framing k u => rw [hb] at h; cases h; simp [clockWidth_of_framing hb]
  | stopped f => rw [hb] at h; cases h

theorem clockWidth_of_tick {s t : State} (h : tick s = .next t) : t.clockWidth = s.clockWidth := by
  obtain ⟨i, k, -, -, -, -, ⟨-, rfl⟩ | ⟨-, rfl⟩⟩ := tick_cases h
  · exact clockWidth_offerByte _ s
  · exact clockWidth_afterWrite i k s

/-! ### What a step leaves -/

/-- A step changes `CLOCK_WIDTH` only if running a command does. -/
theorem clockWidth_of_stepWith {run : Instr → State → Outcome} {s t : State}
    (hrun : ∀ {i u v}, run i u = .next v → v.clockWidth = u.clockWidth) (h : stepWith run s = .next t) :
    t.clockWidth = s.clockWidth := by
  cases stepWith_stepped h with
  | reset rest hh => rfl
  | quiet hb hh => rfl
  | idle rest hb hh => rfl
  | inspected k a rest hb hh kind hk ha => rfl
  | reserved c rest hb hh why hd => rfl
  | ran c rest hb hh i hd _ ht => exact (hrun ht).trans (clockWidth_acceptCommand s c (some i) rest)
  | ticked rest hb hh _ ht => exact (clockWidth_of_tick ht).trans rfl

/-! ### What the clock answers -/

/-- R210: an answer is an unsigned value of `CLOCK_WIDTH` bits. -/
theorem clockRead_lt (s : State) : (clockRead s).1 < 2 ^ s.clockWidth := by
  rcases clockRead_cases s with ⟨now, rest, -, e, -⟩ | ⟨-, e, -⟩ <;> rw [e] <;> exact clockBus_lt _ _

/-- R32: a scripted number that fits the bus is answered as it is. -/
theorem clockRead_of_fits {s : State} {now : Nat} {rest : List Nat} (hc : s.clock = now :: rest)
    (hn : now < 2 ^ s.clockWidth) : (clockRead s).1 = now := by
  rcases clockRead_cases s with ⟨now', rest', hc', e, -⟩ | ⟨hc', -, -⟩
  · obtain ⟨rfl, -⟩ := List.cons.inj (hc.symm.trans hc')
    exact e.trans (Nat.mod_eq_of_lt hn)
  · cases hc.symm.trans hc'

/-- Settles O48, by the frame of one step: each way a step can go on leaves `CLOCK_WIDTH`, in either machine. -/
theorem clockWidthIsAParameter : Obligations.ClockWidthIsAParameter := by
  refine ⟨rfl, ?_, clockRead_lt, fun s now rest => clockRead_of_fits⟩
  rintro s t (h | h)
  · exact clockWidth_of_stepWith clockWidth_of_exec h
  · exact clockWidth_of_stepWith clockWidth_of_execBytes h

end Sys2Proof.Machine
end

section
/-! PROOFS. What keeps the invariant (spec/10_state.md R23, R25, R26, R33, R61): reset, a step that only takes an event
off the port, the beginning and the end of a command, and a step of the byte sequencer. -/

namespace Sys2Proof.Machine

/-! ### Reset and the port -/

theorem packetsOk_of_zero {s : State} (h : s.pkts = Packets.zero) : packetsOk s = true := by
  refine packetsOk_iff.2 fun k => ?_
  rw [State.pkt, h, Packets.get_zero]
  decide

/-- R36, R230: reset makes a good state of any state; only the width of the clock and the host's script stay. -/
theorem inv_hostReset {s : State} {rest : List HostEvent} (hw : clockOk s = true) (hh : hostOk rest = true) :
    (hostReset rest s).inv = true :=
  inv_iff.2 ⟨hw, packetsOk_of_zero rfl, rfl, hh, rfl, rfl⟩

/-- Settles O44: the state after reset is what reset makes of itself. -/
theorem resetMeetsInvariant : Obligations.ResetMeetsInvariant :=
  inv_hostReset (s := State.reset) (rest := []) rfl rfl

/-- The invariant does not read what the inspection port has shown, and asks of the host's script that it is good. -/
theorem inv_of_host {s : State} {rest : List HostEvent} (shown : List Byte) (hs : s.inv = true)
    (hh : hostOk rest = true) : State.inv { s with host := rest, inspected := shown } = true := by
  obtain ⟨hw, hp, hsrc, -, hrec, hseq⟩ := inv_iff.1 hs
  exact inv_iff.2 ⟨hw, hp, hsrc, hh, hrec, hseq⟩

/-! ### A command up to its first write -/

/-- `s` is a good state inside a command of which no byte has been sent: the port holds `held`, the sequencer is idle
and the wire shows whole frames (R26, R61). -/
structure Unsent (held : Option Instr) (s : State) : Prop where
  clock : clockOk s = true
  packets : packetsOk s = true
  source : sourceOk s.src = true
  host : hostOk s.host = true
  record : recordOk s = true
  frames : framesOk s.sink = true
  phase : s.phase = .idle
  idx : s.idx = 0
  busy : s.busy = true
  current : s.current = held

/-- R81: a command accepted at a good boundary has sent nothing yet. -/
theorem unsent_acceptCommand {s : State} {c : Command} {rest : List HostEvent} (held : Option Instr)
    (hs : s.inv = true) (hb : s.busy = false) (hh : s.host = .command c :: rest) :
    Unsent held (acceptCommand c held rest s) := by
  obtain ⟨hw, hp, -, hhost, hrec, hseq⟩ := inv_iff.1 hs
  simp only [hb, Bool.false_eq_true, if_false] at hseq
  obtain ⟨hph, hidx, -, -, hfr⟩ := boundaryOk_iff.1 hseq
  rw [hh] at hhost
  exact
    { clock := hw, packets := hp, source := hostOk_command hhost, host := hostOk_cons hhost, record := hrec
      frames := hfr, phase := hph, idx := hidx, busy := rfl, current := rfl }

/-- A PACK step, with a good `REC` or none, sends nothing and leaves good buffers (R140, R142). -/
theorem Unsent.layOut {held : Option Instr} {s : State} (h : Unsent held s) (k : Kind) {data : List Byte}
    (hd : data.length ≤ 1024) {r : Option Mem} (hr : recordOk { s with recBuf := r } = true) :
    Unsent held (layOut k data.length data { s with recBuf := r }) := by
  have hp := packetsOk_layOut (k := k) h.packets hd r
  rw [layOut_eq _ _ _ _ rfl] at hp ⊢
  exact { h with packets := hp, record := hr }

/-- The end of a command that sends nothing. -/
theorem Unsent.inv_finish {held : Option Instr} {s : State} (h : Unsent held s) (response : Response)
    (label : Option Reject) : (finish response label s).inv = true :=
  Machine.inv_finish h.clock h.packets h.source h.host h.frames h.phase h.idx

/-- A command that ends without a frame ends in a good state. -/
theorem Unsent.inv_of_ended {i : Instr} {s t : State} (h : Unsent (some i) s) (hb : beginCommand i s = .ended t) :
    t.inv = true := by
  have began := beginCommand_began i s
  rw [hb] at began
  cases began with
  | rejected why => exact h.inv_finish _ _
  | checksum sp len hi v => exact Unsent.inv_finish (s := { s with crc := v }) { h with } _ _
  | packed pkt sp len hi k hk data hd => exact (h.layOut k hd (r := s.recBuf) h.record).inv_finish _ _

/-- A command that is about to emit a frame has sent nothing yet. -/
theorem Unsent.of_framing {i : Instr} {k : Kind} {s t : State} (h : Unsent (some i) s)
    (hb : beginCommand i s = .framing k t) : Unsent (some i) t := by
  have began := beginCommand_began i s
  rw [hb] at began
  cases began with
  | sending => exact h
  | framed _ hf hp hr data h0 hd r hrec =>
    refine h.layOut k hd ?_
    rcases hrec with rfl | ⟨m, rfl, hwf, hin⟩
    · exact h.record
    · exact Bool.and_eq_true_iff.2 ⟨hwf, hin⟩

/-- A command run as one step ends in a good state (R60, R61). -/
theorem Unsent.inv_of_exec {i : Instr} {s t : State} (h : Unsent (some i) s) (he : exec i s = .next t) :
    t.inv = true := by
  rw [exec_eq_runWhole] at he
  cases hb : beginCommand i s with
  | ended u => rw [hb] at he; cases he; exact h.inv_of_ended hb
  | framing k u =>
    rw [hb] at he; cases he
    have hu := h.of_framing hb
    exact inv_finish_sendStep hu.clock hu.packets hu.source hu.host hu.frames
  | stopped f => rw [hb] at he; cases he

/-! ### A step of the byte sequencer -/

/-- A step inside a frame that moves only the sequencer and the sink keeps the invariant if it keeps the mid-frame
condition. -/
theorem inv_of_midFrameOk {s : State} {ph : Phase} {idx : BitVec 11} {sink : List Write} {ready : List Bool}
    (hs : s.inv = true) (hb : s.busy = true)
    (hm : midFrameOk { s with phase := ph, idx := idx, sink := sink, txReady := ready } = true) :
    State.inv { s with phase := ph, idx := idx, sink := sink, txReady := ready } = true := by
  obtain ⟨hw, hp, hsrc, hh, hrec, -⟩ := inv_iff.1 hs
  refine inv_iff.2 ⟨hw, hp, hsrc, hh, hrec, ?_⟩
  simp only [hb, if_true]
  exact hm

section
variable {s : State} {i : Instr} {k : Kind} {ws : List Write}

/-- R148, R149: a byte offered inside the open write joins the frame in flight, or the sequencer waits. -/
theorem inv_offerByte (hs : s.inv = true) (hb : s.busy = true) (hc : s.current = some i) (hk : frameKind i = some k)
    (hph : s.phase ≠ .idle) (hf : framesOk ws = true) (hsink : s.sink = ws ++ inFlight (s.pkt k) s.phase s.idx.toNat)
    (hn : payloadSize (s.pkt k) ≤ 1024) (hi : s.idx.toNat < phaseCount (s.pkt k) s.phase) :
    (offerByte (txData k s) s).inv = true := by
  rcases offerByte_cases (txData k s) s with ⟨ready, -, e⟩ | ⟨ready, -, e⟩ <;> rw [e]
  · exact inv_of_midFrameOk hs hb (midFrameOk_iff.2 ⟨i, k, ws, hc, hk, hph, hi.le, hf, hsink⟩)
  · have hidx : (s.idx + 1).toNat = s.idx.toNat + 1 := idx_succ (hi.trans_le (phaseCount_le hn s.phase))
    refine inv_of_midFrameOk hs hb (midFrameOk_iff.2 ⟨i, k, ws, hc, hk, hph, ?_, hf, ?_⟩)
    · exact hidx.le.trans hi
    · show extendLast s.sink (txData k s) = ws ++ inFlight (s.pkt k) s.phase (s.idx + 1).toNat
      rw [hsink, hidx]
      exact extendLast_inFlight ws (s.pkt k) s.phase s.idx.toNat hph

/-- Opening a write keeps the invariant when its announcement is the next thing the frame in flight shows (R148). -/
theorem inv_openWrite {ph : Phase} {count : Nat} (hs : s.inv = true) (hb : s.busy = true) (hc : s.current = some i)
    (hk : frameKind i = some k) (hph : ph ≠ .idle) (hf : framesOk ws = true)
    (hsink : s.sink ++ [{ count := count, bytes := [] }] = ws ++ inFlight (s.pkt k) ph 0) :
    (openWrite ph count s).inv = true :=
  inv_of_midFrameOk hs hb (midFrameOk_iff.2 ⟨i, k, ws, hc, hk, hph, Nat.zero_le _, hf, hsink⟩)

/-- R148: when the open write is complete the next one is opened; after the third the command ends, its frame whole. -/
theorem inv_afterWrite (hs : s.inv = true) (hb : s.busy = true) (hc : s.current = some i) (hk : frameKind i = some k)
    (hf : framesOk ws = true) (hsink : s.sink = ws ++ inFlight (s.pkt k) s.phase s.idx.toNat)
    (hi : s.idx.toNat = phaseCount (s.pkt k) s.phase) : (afterWrite i k s).inv = true := by
  rw [hi] at hsink
  unfold afterWrite
  cases hph : s.phase with
  | idle => exact hs
  | prefixWrite =>
    rw [hph] at hsink
    exact inv_openWrite hs hb hc hk (by decide) hf (by simp [hsink, inFlight, phaseCount])
  | payloadWrite =>
    rw [hph] at hsink
    exact inv_openWrite hs hb hc hk (by decide) hf (by simp [hsink, inFlight, phaseCount])
  | checksumWrite =>
    obtain ⟨hw, hp, hsrc, hh, -, -⟩ := inv_iff.1 hs
    have hframes : framesOk s.sink = true := by
      rw [hsink, hph]
      exact framesOk_inFlight_end hf (packetsOk_iff.1 hp k)
    exact inv_finish hw hp hsrc hh hframes rfl rfl

end

/-- A step of a command in progress keeps the invariant. -/
theorem inv_of_tick {s t : State} (hs : s.inv = true) (hb : s.busy = true) (h : tick s = .next t) : t.inv = true := by
  obtain ⟨-, -, -, -, -, hseq⟩ := inv_iff.1 hs
  simp only [hb, if_true] at hseq
  obtain ⟨i, k, ws, hc, hk, hph, hle, hf, hsink⟩ := midFrameOk_iff.1 hseq
  obtain ⟨i', k', hc', hk', hn, -, hstep⟩ := tick_cases h
  obtain rfl : i = i' := Option.some.inj (hc.symm.trans hc')
  obtain rfl : k = k' := Option.some.inj (hk.symm.trans hk')
  rcases hstep with ⟨hi, rfl⟩ | ⟨hi, rfl⟩
  · exact inv_offerByte hs hb hc hk hph hf hsink hn hi
  · exact inv_afterWrite hs hb hc hk hf hsink (hle.antisymm hi)

/-! ### One step -/

/-- A step of either machine keeps the invariant if every accepted command is run to a good state. -/
theorem inv_of_stepWith {run : Instr → State → Outcome} {s t : State}
    (hrun : ∀ {i u v}, Unsent (some i) u → run i u = .next v → v.inv = true) (hs : s.inv = true)
    (h : stepWith run s = .next t) : t.inv = true := by
  obtain ⟨hw, -, -, hhost, -, -⟩ := inv_iff.1 hs
  cases stepWith_stepped h with
  | reset rest hh => rw [hh] at hhost; exact inv_hostReset hw (hostOk_cons hhost)
  | quiet hb hh => exact hs
  | idle rest hb hh => rw [hh] at hhost; exact inv_of_host s.inspected hs (hostOk_cons hhost)
  | inspected k a rest hb hh kind hk ha => rw [hh] at hhost; exact inv_of_host _ hs (hostOk_cons hhost)
  | reserved c rest hb hh why hd => exact (unsent_acceptCommand none hs hb hh).inv_finish .noResult (some .reserved)
  | ran c rest hb hh i hd _ ht => exact hrun (unsent_acceptCommand (some i) hs hb hh) ht
  | ticked rest hb hh _ ht =>
    have hrest : hostOk rest = true := by
      rcases hh with hh | ⟨rfl, -⟩
      · rw [hh] at hhost; exact hostOk_cons hhost
      · exact hhost
    exact inv_of_tick (inv_of_host s.inspected hs hrest) hb ht

/-- Settles O42, by the ways a step can go on: each leaves the Packets, the sequencer and the wire as the invariant
says. -/
theorem stepKeepsInvariant : Obligations.StepKeepsInvariant := fun _ _ hs h => inv_of_stepWith Unsent.inv_of_exec hs h

end Sys2Proof.Machine
end

section
/-! PROOFS. Stale payload bytes (spec/10_state.md R34): a PACK leaves them, and neither its used span and checksum nor
the writes of a SEND depend on them; and the stored size that no run reaches (log entry 5). -/

namespace Sys2Proof.Machine

/-- A PACK whose guards pass packs the source bytes into the buffer of its handle (R142). -/
theorem exec_pack_pkt {pkt len : Nat} {k : Kind} (s : State) (hk : handleKind pkt = some k) (hl : len ≤ 1024) :
    ∃ t, exec (.pack pkt true len) s = .next t ∧
      t.pkt k = packedMem (s.pkt k) (trunc16 (clockRead s).1) len (readSrc len s) := by
  refine ⟨_, exec_pack_ok s hk hl, ?_⟩
  rw [layOut_eq _ _ _ _ (readSrc_length len s)]
  exact Packets.get_set_same s.pkts k _

/-- A SEND step adds the whole frame of its buffer to the write history (R145). -/
theorem sink_sendStep (k : Kind) (s : State) :
    (sendStep k s).sink = s.sink ++ inFlight (s.pkt k) .checksumWrite 2 := by
  rw [sendStep_eq]; rfl

/-- The length field lies in the used span. -/
theorem payloadSize_congr {m m' : Mem} {n : Nat} (h : readBytes m 0 (6 + n) = readBytes m' 0 (6 + n)) :
    payloadSize m = payloadSize m' := by
  rw [payloadSize, payloadSize, read16, read16, Config.offPayloadSize, read_of_readBytes h (b := 4) (by omega),
    read_of_readBytes h (b := 4 + 1) (by omega)]

/-- R34: the writes of a frame are made of the used span and the checksum alone. -/
theorem inFlight_congr {m m' : Mem} (hu : readBytes m 0 (6 + payloadSize m) = readBytes m' 0 (6 + payloadSize m))
    (hc : readBytes m 1030 2 = readBytes m' 1030 2) : inFlight m .checksumWrite 2 = inFlight m' .checksumWrite 2 := by
  have hn : payloadSize m = payloadSize m' := payloadSize_congr hu
  rw [readBytes_append, readBytes_append m'] at hu
  obtain ⟨hprefix, hpayload⟩ := List.append_inj hu (by simp)
  rw [Nat.zero_add] at hpayload
  simp only [inFlight, ← hn, hprefix, hpayload, hc, Config.offChecksum]

/-- Settles O14: what a PACK stores is a function of the clock and the source, and a frame is a function of the used
span and the checksum. -/
theorem staleBytesStayAndAreNeverSent : Obligations.StaleBytesStayAndAreNeverSent := by
  refine ⟨?stale, ?packed, ?sent⟩
  case stale =>
    intro pkt len k s hk hl
    obtain ⟨t, ht, hp⟩ := exec_pack_pkt s hk hl
    refine ⟨t, ht, fun a h6 h1030 => ?_⟩
    rw [hp, packedMem_other (readSrc_length len s) hl (.inl ⟨h6, h1030⟩)]
  case packed =>
    intro pkt len k s other hk hl
    obtain ⟨t, ht, hp⟩ := exec_pack_pkt s hk hl
    obtain ⟨t', ht', hp'⟩ := exec_pack_pkt { s with pkts := other } hk hl
    have hnow := (clockRead_congr (s := { s with pkts := other }) (t := s) rfl rfl rfl).1
    have hsrc : readSrc len { s with pkts := other } = readSrc len s := rfl
    rw [hnow, hsrc] at hp'
    refine ⟨t, t', ht, ht', ?_, ?_⟩
    · rw [hp, hp', packedMem_used (readSrc_length len s) hl, packedMem_used (readSrc_length len s) hl]
    · rw [hp, hp', read16_of_readBytes packedMem_checksum, read16_of_readBytes packedMem_checksum]
  case sent =>
    intro pkt k s s' hk hn hu hc
    have hn' : payloadSize (s'.pkt k) ≤ 1024 := payloadSize_congr hu ▸ hn
    refine ⟨_, _, inFlight (s.pkt k) .checksumWrite 2, exec_send_ok s hk hn, exec_send_ok s' hk hn', ?_, ?_⟩
    · rw [sink_finish, sink_sendStep]
    · rw [sink_finish, sink_sendStep, inFlight_congr hu hc]

/-- Settles O18: the size guard of SEND fires before the first write. -/
theorem sendStopsOnOversizedStoredLength : Obligations.SendStopsOnOversizedStoredLength := by
  intro pkt k s hk hn
  have hbegin : beginSend pkt s = .stopped .payloadSizeOutOfRange := by
    simp only [beginSend, hk]
    exact if_pos hn
  rw [exec_eq_runWhole, beginCommand, hbegin, runWhole]

end Sys2Proof.Machine
end

section
/-! PROOFS. The reset values (spec/10_state.md R36) and the inspection port (R37). -/

namespace Sys2Proof.Machine

/-- Settles O45: an empty Packet reads as 0x00 everywhere, and the rest is the value written in the reset state. -/
theorem resetValues : Obligations.ResetValues := by
  refine ⟨fun k a => ?_, rfl, rfl, rfl, rfl, rfl, rfl⟩
  have hzero : State.reset.pkt k = [] := Packets.get_zero k
  rw [hzero, read_nil]

/-- Handles 0 and 7 name no Packet (R101). -/
theorem handleKind_absent {n : Nat} (h : n = 0 ∨ n = 7) : handleKind n = none := by
  rcases h with rfl | rfl <;> rfl

theorem inspectPort_ok {k : BitVec 3} {a : BitVec 11} {kind : Kind} (rest : List HostEvent) (s : State)
    (hk : handleKind k.toNat = some kind) (ha : a.toNat ≤ 1031) :
    inspectPort k a rest s =
      .next { s with host := rest, inspected := s.inspected ++ [Mem.read (s.pkt kind) a.toNat] } := by
  simp only [inspectPort, hk]
  exact if_pos (Nat.lt_succ_of_le ha)

theorem inspectPort_refused {k : BitVec 3} {a : BitVec 11} (rest : List HostEvent) (s : State)
    (h : handleKind k.toNat = none ∨ 1031 < a.toNat) :
    inspectPort k a rest s = .refused .inspectionOutsideContract := by
  unfold inspectPort
  cases hk : handleKind k.toNat with
  | none => rfl
  | some kind =>
    have ha : 1031 < a.toNat := h.resolve_left (by simp [hk])
    exact if_neg (Nat.not_lt.2 ha)

section
variable {s : State} {k : BitVec 3} {a : BitVec 11} {rest : List HostEvent}

/-- An idle block answers the inspection port. -/
theorem step_inspect_idle (hh : s.host = .inspect k a :: rest) (hb : s.busy = false) :
    step s = inspectPort k a rest s := by
  simp only [step, stepWith, hb, Bool.false_eq_true, if_false, idleStep, hh]

/-- A busy block refuses it (R241). -/
theorem step_inspect_busy (hh : s.host = .inspect k a :: rest) (hb : s.busy = true) :
    step s = .refused .inspectionOutsideContract := by
  simp only [step, stepWith, hb, if_true, busyStep, hh]

end

/-- Settles O47: the port shows a byte inside its contract, and each way out of the contract is refused. -/
theorem inspectionPortReadsOneByte : Obligations.InspectionPortReadsOneByte := by
  intro s k a rest hh
  refine ⟨fun kind hb hk ha => ?_, fun hout => ?_⟩
  · rw [step_inspect_idle hh hb, inspectPort_ok rest s hk ha]
  · cases hb : s.busy with
    | true => exact step_inspect_busy hh hb
    | false =>
      rw [step_inspect_idle hh hb]
      refine inspectPort_refused rest s ?_
      rcases hout with h | h | h | h
      · cases hb.symm.trans h
      · exact .inl (handleKind_absent (.inl h))
      · exact .inl (handleKind_absent (.inr h))
      · exact .inr h

end Sys2Proof.Machine
end

section
/-! PROOFS. Memory, and the frame a Packet holds: what a write changes and gives back (spec/20_memory.md R55, R56, R58),
the canonical form of a memory (log entry 3), and that a SEND after a PACK, however often, sends what that PACK wrote
(R64). -/

namespace Sys2Proof.Machine

/-! ### Writes -/

/-- Inside a written span each offset reads the byte written there. -/
theorem read_writeBytes_inside (m : Mem) (a : Nat) (bs : List Byte) (i : Nat) (h : i < bs.length) :
    Mem.read (writeBytes m a bs) (a + i) = bs[i] := by
  rw [read_writeBytes, if_pos ⟨Nat.le_add_right a i, Nat.add_lt_add_left h a⟩, Nat.add_sub_cancel_left,
    List.getD_eq_getElem _ _ h]

/-- Settles O32: a multi-byte write is the write of its bytes, lowest first, so each clause is one about spans. -/
theorem writesChangeOnlyTheirBytes : Obligations.WritesChangeOnlyTheirBytes := by
  refine ⟨read_write, fun m a v => ?half, fun m a v => ?word⟩
  case half =>
    exact ⟨read_writeBytes_inside m a (le16 v) 0 (by simp), read_writeBytes_inside m a (le16 v) 1 (by simp),
      read16_of_readBytes (readBytes_writeBytes_len rfl), fun _ hb => read_writeBytes_outside hb⟩
  case word =>
    exact ⟨read_writeBytes_inside m a (le32 v) 0 (by simp), read_writeBytes_inside m a (le32 v) 3 (by simp),
      read32_of_readBytes (readBytes_writeBytes_len rfl), fun _ hb => read_writeBytes_outside hb⟩

/-! ### The canonical form -/

theorem read_cons_same (a : Nat) (v : Byte) (m : Mem) : Mem.read ((a, v) :: m) a = v := by
  rw [Mem.read, if_pos rfl]

theorem read_cons_other {a b : Nat} (v : Byte) (m : Mem) (h : b ≠ a) : Mem.read ((a, v) :: m) b = Mem.read m b := by
  rw [Mem.read, if_neg h]

/-- The first listed offset of a canonical memory is the lowest that does not read 0x00. -/
theorem head_le_of_read_ne_zero {a b : Nat} {v : Byte} {m : Mem} (hm : Mem.wf ((a, v) :: m) = true)
    (hb : Mem.read ((a, v) :: m) b ≠ 0) : a ≤ b := by
  obtain ⟨-, habove, -⟩ := wf_cons.1 hm
  by_contra hlt
  have hlt : b < a := Nat.lt_of_not_le hlt
  refine hb (read_below ?_)
  simp only [List.all_cons, Bool.and_eq_true, decide_eq_true_eq, List.all_eq_true] at habove ⊢
  exact ⟨hlt, fun c hc => hlt.trans (habove c hc)⟩

/-- The first listed byte of a canonical memory is not 0x00. -/
theorem read_head_ne_zero {a : Nat} {v : Byte} {m : Mem} (hm : Mem.wf ((a, v) :: m) = true) :
    Mem.read ((a, v) :: m) a ≠ 0 := by
  rw [read_cons_same]
  exact (wf_cons.1 hm).1

/-- Settles O33, by induction on one of the lists: both begin at the lowest offset that does not read 0x00, with the
byte read there, and what follows reads alike. -/
theorem canonicalMemoriesThatReadAlikeAreEqual : Obligations.CanonicalMemoriesThatReadAlikeAreEqual := by
  intro m
  induction m with
  | nil =>
    rintro (_ | ⟨⟨b, w⟩, m'⟩) - hm' hread
    · rfl
    · exact absurd (hread b).symm (read_head_ne_zero hm')
  | cons c m ih =>
    obtain ⟨a, v⟩ := c
    rintro (_ | ⟨⟨b, w⟩, m'⟩) hm hm' hread
    · exact absurd (hread a) (read_head_ne_zero hm)
    · have hab : a ≤ b := head_le_of_read_ne_zero hm (hread b ▸ read_head_ne_zero hm')
      have hba : b ≤ a := head_le_of_read_ne_zero hm' (hread a ▸ read_head_ne_zero hm)
      obtain rfl : a = b := Nat.le_antisymm hab hba
      obtain rfl : v = w := by simpa only [read_cons_same] using hread a
      obtain ⟨-, habove, hwf⟩ := wf_cons.1 hm
      obtain ⟨-, habove', hwf'⟩ := wf_cons.1 hm'
      refine congrArg _ (ih m' hwf hwf' fun c => ?_)
      by_cases hc : c = a
      · rw [hc, read_below habove, read_below habove']
      · rw [← read_cons_other v m hc, hread c, read_cons_other v m' hc]

/-! ### The frame of a packed buffer -/

/-- R85, R142: the writes a SEND makes of a packed buffer. -/
theorem inFlight_packedMem {m : Mem} {t : Half} {len : Nat} {data : List Byte} (h : data.length = len)
    (hl : len ≤ 1024) :
    inFlight (packedMem m t len data) .checksumWrite 2 =
      [{ count := 6, bytes := prefixBytes t len }, { count := len, bytes := data },
       { count := 2, bytes := le16 (crc16 (prefixBytes t len ++ data)) }] := by
  simp only [inFlight, packedMem_prefix, packedMem_size hl, packedMem_payload h hl, Config.offChecksum,
    packedMem_checksum, framePrefix_eq]

/-- SEND sends the frame of its Packet and leaves every Packet (R145, R146). -/
theorem exec_send_frame {pkt : Nat} {k : Kind} (s : State) (hk : handleKind pkt = some k)
    (hn : payloadSize (s.pkt k) ≤ 1024) :
    ∃ t, exec (.send pkt) s = .next t ∧ t.pkts = s.pkts ∧ t.sink = s.sink ++ inFlight (s.pkt k) .checksumWrite 2 := by
  refine ⟨_, exec_send_ok s hk hn, ?_, ?_⟩
  · rw [pkts_finish, sendStep_eq]
  · rw [sink_finish, sink_sendStep]

/-- Settles O19: PACK leaves a packed buffer, and SEND sends the frame of its buffer and leaves the buffer for the next
SEND. -/
theorem repeatedSendRepeatsThePackedFrame : Obligations.RepeatedSendRepeatsThePackedFrame := by
  intro pkt len k s hk hl
  obtain ⟨t, ht, hpkt⟩ := exec_pack_pkt s hk hl
  refine ⟨t, ht, fun u hu => ?_⟩
  have hupkt := (pkt_congr hu k).trans hpkt
  have hn : payloadSize (u.pkt k) ≤ 1024 := by rw [hupkt, packedMem_size hl]; exact hl
  obtain ⟨v, hv, hvpkts, hvsink⟩ := exec_send_frame u hk hn
  have hvpkt : v.pkt k = u.pkt k := pkt_congr hvpkts k
  obtain ⟨w, hw, -, hwsink⟩ := exec_send_frame v hk (hvpkt ▸ hn)
  rw [hvpkt] at hwsink
  rw [hupkt, inFlight_packedMem (readSrc_length len s) hl] at hvsink hwsink
  exact ⟨v, w, hv, hw, hvsink, hwsink⟩

end Sys2Proof.Machine
end

section
/-! PROOFS. The frame of every command (spec/20_memory.md R51, spec/42_encoder_senders.md R172, R182): how a command that
ends has ended, said once (`exec_ended`), and what each such end leaves. -/

namespace Sys2Proof.Machine

/-- How command `i`, run from `s` as one step, can have ended: with which response and in which state (R60, R84). -/
inductive Ended (i : Instr) (s : State) : Report → State → Prop
  /-- a guard rejected it (R202) -/
  | rejected (why : Reject) :
      Ended i s { response := rejectResponse i, label := some why } (reject why (rejectResponse i) s)
  /-- CRC16 with its source (R124) -/
  | checksum (sp : Bool) (len : Nat) (hi : i = .crc16 sp len) (v : Half) :
      Ended i s { response := .checksum v, label := none } (finish (.checksum v) none { s with crc := v })
  /-- PACK whose guards passed (R140) -/
  | packed (pkt : Nat) (sp : Bool) (len : Nat) (hi : i = .pack pkt sp len) (k : Kind) (hk : handleKind pkt = some k)
      (data : List Byte) (hd : data.length ≤ 1024) :
      Ended i s { response := .status true, label := none } (finish (.status true) none (layOut k data.length data s))
  /-- SEND of a present handle (R145) -/
  | sent (pkt : Nat) (hi : i = .send pkt) (k : Kind) (hk : handleKind pkt = some k)
      (hn : payloadSize (s.pkt k) ≤ 1024) :
      Ended i s { response := .status true, label := none } (finish (.status true) none (sendStep k s))
  /-- SENDDATA or a sender whose guards passed (R170, R172) -/
  | framed (k : Kind) (hf : frameKind i = some k) (hp : packsInto i = some k) (hi : frameResponse i = .noResult)
      (data : List Byte) (h0 : 0 < data.length) (hd : data.length ≤ 1024) (r : Option Mem) :
      Ended i s { response := .noResult, label := none }
        (finish .noResult none (sendStep k (layOut k data.length data { s with recBuf := r })))

/-- Everything a command run as one step can do. -/
theorem exec_ended {i : Instr} {s t : State} (h : exec i s = .next t) : ∃ r, Ended i s r t := by
  have began := beginCommand_began i s
  rw [exec_eq_runWhole] at h
  generalize beginCommand i s = b at h began
  cases began with
  | rejected why => cases h; exact ⟨_, .rejected why⟩
  | checksum sp len hi v => cases h; exact ⟨_, .checksum sp len hi v⟩
  | packed pkt sp len hi k hk data hd => cases h; exact ⟨_, .packed pkt sp len hi k hk data hd⟩
  | sending pkt hi k hk hn => subst hi; cases h; exact ⟨_, .sent pkt rfl k hk hn⟩
  | framed k hf hp hr data h0 hd r hrec => rw [hr] at h; cases h; exact ⟨_, .framed k hf hp hr data h0 hd r⟩
  | stopped f hw => cases h

/-- A clock read takes one number off the script, when there is one (R32). -/
@[simp] theorem clock_clockRead (s : State) : (clockRead s).2.clock = s.clock.tail := by
  rcases clockRead_cases s with ⟨now, rest, hc, -, e⟩ | ⟨hc, -, e⟩ <;> rw [e, hc] <;> rfl

section
variable {i : Instr} {s t : State} {r : Report}

/-- R84: the command gives one response. -/
theorem Ended.reports (h : Ended i s r t) : t.reports = s.reports ++ [r] := by
  cases h with
  | rejected why => rfl
  | checksum sp len hi v => rfl
  | packed pkt sp len hi k hk data hd => rw [layOut_eq _ _ _ _ rfl]; rfl
  | sent pkt hi k hk hn => rfl
  | framed k hf hp hi data h0 hd buf => rw [layOut_eq _ _ _ _ rfl]; rfl

/-- R51: a command changes only the Packet it may pack. -/
theorem Ended.pkt_other (h : Ended i s r t) {k : Kind} (hk : packsInto i ≠ some k) : t.pkt k = s.pkt k := by
  cases h with
  | rejected why => rfl
  | checksum sp len hi v => rfl
  | packed pkt sp len hi j hj data hd =>
    subst hi
    rw [layOut_eq _ _ _ _ rfl]
    exact Packets.get_set_other _ _ _ _ fun e => hk (hj.trans (congrArg some e.symm))
  | sent pkt hi j hj hn => rfl
  | framed j hf hp hi data h0 hd buf =>
    rw [layOut_eq _ _ _ _ rfl]
    exact Packets.get_set_other _ _ _ _ fun e => hk (hp.trans (congrArg some e.symm))

/-- R51: a command changes neither what the environment shows nor what an inspection or a reset has recorded. -/
theorem Ended.keeps (h : Ended i s r t) :
    t.src = s.src ∧ t.host = s.host ∧ t.clockWidth = s.clockWidth ∧ t.txReady = s.txReady ∧
      t.inspected = s.inspected ∧ t.wireBeforeReset = s.wireBeforeReset := by
  cases h with
  | rejected why => exact ⟨rfl, rfl, rfl, rfl, rfl, rfl⟩
  | checksum sp len hi v => exact ⟨rfl, rfl, rfl, rfl, rfl, rfl⟩
  | packed pkt sp len hi k hk data hd => rw [layOut_eq _ _ _ _ rfl]; exact ⟨rfl, rfl, rfl, rfl, rfl, rfl⟩
  | sent pkt hi k hk hn => exact ⟨rfl, rfl, rfl, rfl, rfl, rfl⟩
  | framed k hf hp hi data h0 hd buf => rw [layOut_eq _ _ _ _ rfl]; exact ⟨rfl, rfl, rfl, rfl, rfl, rfl⟩

/-- R172, R182: three writes for a command that emits a frame, and none for any other or when it is rejected. -/
theorem Ended.sink (h : Ended i s r t) :
    if r.label = none ∧ (frameKind i).isSome then ∃ w1 w2 w3, t.sink = s.sink ++ [w1, w2, w3]
      else t.sink = s.sink := by
  cases h with
  | rejected why => rfl
  | checksum sp len hi v => subst hi; rfl
  | packed pkt sp len hi k hk data hd => subst hi; rw [layOut_eq _ _ _ _ rfl]; rfl
  | sent pkt hi k hk hn =>
    subst hi
    rw [if_pos ⟨rfl, by rw [frameKind, hk]; rfl⟩]
    exact ⟨_, _, _, sink_sendStep k s⟩
  | framed k hf hp hi data h0 hd buf =>
    rw [if_pos ⟨rfl, by rw [hf]; rfl⟩, layOut_eq _ _ _ _ rfl]
    exact ⟨_, _, _, sink_sendStep k _⟩

/-- R182: the clock is read once by a command that packed, and by no other. -/
theorem Ended.clock (h : Ended i s r t) :
    if r.label = none ∧ (packsInto i).isSome then t.clockReads = s.clockReads + 1 ∧ t.clock = s.clock.tail
      else t.clockReads = s.clockReads ∧ t.clock = s.clock := by
  cases h with
  | rejected why => exact ⟨rfl, rfl⟩
  | checksum sp len hi v => subst hi; exact ⟨rfl, rfl⟩
  | packed pkt sp len hi k hk data hd =>
    subst hi
    rw [if_pos ⟨rfl, by rw [packsInto, hk]; rfl⟩, layOut_eq _ _ _ _ rfl]
    exact ⟨rfl, clock_clockRead s⟩
  | sent pkt hi k hk hn => subst hi; exact ⟨rfl, rfl⟩
  | framed k hf hp hi data h0 hd buf =>
    rw [if_pos ⟨rfl, by rw [hp]; rfl⟩, layOut_eq _ _ _ _ rfl]
    exact ⟨rfl, clock_clockRead _⟩

/-- R182: SEND leaves `crc`, since it computes no checksum. -/
theorem Ended.crc_of_send (h : Ended i s r t) {pkt : Nat} (hi : i = .send pkt) : t.crc = s.crc := by
  subst hi
  cases h with
  | rejected why => rfl
  | checksum sp len hi v => cases hi
  | packed pkt sp len hi k hk data hd => cases hi
  | sent pkt hi k hk hn => rfl
  | framed k hf hp hi data h0 hd buf => cases hp

end

/-- The mnemonic of SEND is SEND's alone (R97). -/
theorem eq_send_of_mnemonic {i : Instr} (h : i.mnemonic = "SEND") : ∃ pkt, i = .send pkt := by
  cases i with
  | send pkt => exact ⟨pkt, rfl⟩
  | _ => simp [Instr.mnemonic] at h

/-- Settles O36, by the ways a command can have ended: each leaves everything outside its spaces. -/
theorem commandsTouchOnlyTheirSpaces : Obligations.CommandsTouchOnlyTheirSpaces := by
  intro i s t r h hr
  obtain ⟨r', he⟩ := exec_ended h
  obtain rfl : r' = r := List.singleton_inj.1 (List.append_cancel_left (he.reports.symm.trans hr))
  obtain ⟨hsrc, hhost, hwidth, hready, hshown, hwire⟩ := he.keeps
  refine ⟨fun k => he.pkt_other, hsrc, hhost, hwidth, hready, hshown, hwire, he.sink, he.clock, fun hsend => ?_⟩
  obtain ⟨pkt, rfl⟩ := eq_send_of_mnemonic hsend
  exact he.crc_of_send rfl

end Sys2Proof.Machine
end

section
/-! PROOFS. The decoder (spec/30_encoding.md R82, R83, R97, R98, R104): the command read from each of the ten opcodes
with the fields it uses, the table rows a command can have come from, and the words of the assembler read back. -/

namespace Sys2Proof

/-! ### Operands (R83) -/

theorem operand8_eq_extractLsb' (w : Word) : operand8 w = w.extractLsb' 0 8 :=
  BitVec.setWidth_eq_extractLsb' (by omega)

theorem operand16_eq_extractLsb' (w : Word) : operand16 w = w.extractLsb' 0 16 :=
  BitVec.setWidth_eq_extractLsb' (by omega)

@[simp] theorem operand8_setWidth (v : Byte) : operand8 (v.setWidth 32) = v := by simp [operand8]

@[simp] theorem operand16_setWidth (v : Half) : operand16 (v.setWidth 32) = v := by simp [operand16]

/-! ### A word built of its fields -/

/-- With the reserved bits 0 the opcode decides (R98). -/
theorem decode_eq_decodeOp {w : CommandWords} (hr : rsvField w.cw = 0) : decode w = decodeOp w :=
  if_neg (not_not.2 hr)

section
variable {pkt len : Nat} (sp : Bool) (hp : pkt < 8) (hl : len < 65536) (a b c : Word)
include hp hl

/-- The word of opcode `op` and any fields decodes to what the opcode map has for its fields. -/
theorem decode_commandWord {op : Nat} {d : Decoded} (ho : op < 256)
    (hd : ∀ cw, opField cw = op → spField cw = sp → pktField cw = pkt → lenField cw = len →
      decodeOp ⟨cw, a, b, c⟩ = d) : decode ⟨commandWord op sp pkt len, a, b, c⟩ = d := by
  have hr : rsvField (commandWord op sp pkt len) = 0 := rsvField_commandWord sp ho hp hl
  rw [decode_eq_decodeOp (w := ⟨commandWord op sp pkt len, a, b, c⟩) hr]
  exact hd _ (opField_commandWord sp ho hp hl) (spField_commandWord sp ho hp hl) (pktField_commandWord sp ho hp hl)
    (lenField_commandWord sp ho hp hl)

theorem decode_sendDateWord : decode ⟨commandWord 0x01 sp pkt len, a, b, c⟩ = .command (.sendDate a b c) :=
  decode_commandWord sp hp hl a b c (by decide) fun cw ho _ _ _ => by simp only [decodeOp, ho]

theorem decode_sendTimeWord : decode ⟨commandWord 0x02 sp pkt len, a, b, c⟩
    = .command (.sendTime (operand8 a) (operand16 b) (operand16 c)) :=
  decode_commandWord sp hp hl a b c (by decide) fun cw ho _ _ _ => by simp only [decodeOp, ho]

theorem decode_sendAdcWord : decode ⟨commandWord 0x03 sp pkt len, a, b, c⟩ = .command (.sendAdc a (operand16 b)) :=
  decode_commandWord sp hp hl a b c (by decide) fun cw ho _ _ _ => by simp only [decodeOp, ho]

theorem decode_sendTextWord : decode ⟨commandWord 0x04 sp pkt len, a, b, c⟩ = .command (.sendText sp len) :=
  decode_commandWord sp hp hl a b c (by decide) fun cw ho hsp _ hlen => by simp only [decodeOp, ho, hsp, hlen]

theorem decode_sendButtonWord : decode ⟨commandWord 0x05 sp pkt len, a, b, c⟩
    = .command (.sendButton (operand8 a) (operand16 b)) :=
  decode_commandWord sp hp hl a b c (by decide) fun cw ho _ _ _ => by simp only [decodeOp, ho]

theorem decode_sendTempWord : decode ⟨commandWord 0x06 sp pkt len, a, b, c⟩ = .command (.sendTemp (operand16 a)) :=
  decode_commandWord sp hp hl a b c (by decide) fun cw ho _ _ _ => by simp only [decodeOp, ho]

theorem decode_crc16Word : decode ⟨commandWord 0x10 sp pkt len, a, b, c⟩ = .command (.crc16 sp len) :=
  decode_commandWord sp hp hl a b c (by decide) fun cw ho hsp _ hlen => by simp only [decodeOp, ho, hsp, hlen]

theorem decode_packWord : decode ⟨commandWord 0x11 sp pkt len, a, b, c⟩ = .command (.pack pkt sp len) :=
  decode_commandWord sp hp hl a b c (by decide) fun cw ho hsp hpkt hlen => by simp only [decodeOp, ho, hsp, hpkt, hlen]

theorem decode_sendWord : decode ⟨commandWord 0x12 sp pkt len, a, b, c⟩ = .command (.send pkt) :=
  decode_commandWord sp hp hl a b c (by decide) fun cw ho _ hpkt _ => by simp only [decodeOp, ho, hpkt]

theorem decode_senddataWord : decode ⟨commandWord 0x13 sp pkt len, a, b, c⟩ = .command (.senddata pkt sp len) :=
  decode_commandWord sp hp hl a b c (by decide) fun cw ho hsp hpkt hlen => by simp only [decodeOp, ho, hsp, hpkt, hlen]

end

/-! ### Well-formed fields (R82) -/

theorem handleFits_iff {pkt : Nat} : handleFits pkt = true ↔ pkt < 8 := decide_eq_true_iff

theorem lengthFits_iff {len : Nat} : lengthFits len = true ↔ len < 65536 := decide_eq_true_iff

theorem fits_iff {pkt len : Nat} : (handleFits pkt && lengthFits len) = true ↔ pkt < 8 ∧ len < 65536 := by
  rw [Bool.and_eq_true, handleFits_iff, lengthFits_iff]

/-- Settles O1: the assembler's word is the one of its opcode and its fields, the unused ones 0, and a narrow operand
is the low bits of the word it was widened to. -/
theorem decodeOfEncodeIsIdentity : Obligations.DecodeOfEncodeIsIdentity := by
  intro i hi
  cases i with
  | sendDate d m y => exact decode_sendDateWord false (by decide) (by decide) d m y
  | sendTime h m x =>
    refine (decode_sendTimeWord false (by decide) (by decide) _ _ _).trans ?_
    simp only [operand8_setWidth, operand16_setWidth]
  | sendAdc n v =>
    refine (decode_sendAdcWord false (by decide) (by decide) _ _ _).trans ?_
    simp only [operand16_setWidth]
  | sendText sp len => exact decode_sendTextWord sp (by decide) (lengthFits_iff.1 hi) 0 0 0
  | sendButton b v =>
    refine (decode_sendButtonWord false (by decide) (by decide) _ _ _).trans ?_
    simp only [operand8_setWidth, operand16_setWidth]
  | sendTemp v =>
    refine (decode_sendTempWord false (by decide) (by decide) _ _ _).trans ?_
    simp only [operand16_setWidth]
  | crc16 sp len => exact decode_crc16Word sp (by decide) (lengthFits_iff.1 hi) 0 0 0
  | pack pkt sp len =>
    obtain ⟨hp, hl⟩ := fits_iff.1 hi
    exact decode_packWord sp hp hl 0 0 0
  | send pkt => exact decode_sendWord false (handleFits_iff.1 hi) (by decide) 0 0 0
  | senddata pkt sp len =>
    obtain ⟨hp, hl⟩ := fits_iff.1 hi
    exact decode_senddataWord sp hp hl 0 0 0

/-- Settles O4: each opcode's word is read by the fields its command uses, whatever the others hold. -/
theorem unusedFieldsAreIgnored : Obligations.UnusedFieldsAreIgnored := by
  intro sp pkt len a b c hp hl
  simp only [← operand8_eq_extractLsb', ← operand16_eq_extractLsb']
  exact ⟨decode_crc16Word sp hp hl a b c, decode_packWord sp hp hl a b c, decode_sendWord sp hp hl a b c,
    decode_senddataWord sp hp hl a b c, decode_sendDateWord sp hp hl a b c, decode_sendTimeWord sp hp hl a b c,
    decode_sendAdcWord sp hp hl a b c, decode_sendTextWord sp hp hl a b c, decode_sendButtonWord sp hp hl a b c,
    decode_sendTempWord sp hp hl a b c⟩

/-! ### The rows of the opcode table (R97) -/

/-- The opcode a row stands for. -/
def OpcodeRow.op (row : OpcodeRow) : Nat := opField row.matchBits

/-- The ten opcodes, in the order of the table. -/
theorem map_op_opcodeTable :
    opcodeTable.map OpcodeRow.op = [0x01, 0x02, 0x03, 0x04, 0x05, 0x06, 0x10, 0x11, 0x12, 0x13] := by decide

/-- A row asks for its opcode and for reserved bits 0. -/
theorem masked_eq_matchBits_iff {row : OpcodeRow} (hrow : row ∈ opcodeTable) (cw : Word) :
    cw &&& 0xFFF00000 = row.matchBits ↔ opField cw = row.op ∧ rsvField cw = 0 := by
  have hbits : ∀ row ∈ opcodeTable, row.op < 256 ∧ row.matchBits = BitVec.ofNat 32 (row.op * 2 ^ 24) := by decide
  obtain ⟨hop, hmatch⟩ := hbits row hrow
  rw [hmatch]
  exact masked_eq_iff cw row.op hop

/-- The opcode of a row gives a command with the row's mnemonic. -/
theorem decodeOp_of_row {row : OpcodeRow} (hrow : row ∈ opcodeTable) {w : CommandWords} (ho : opField w.cw = row.op) :
    ∃ i, decodeOp w = .command i ∧ i.mnemonic = row.mnemonic := by
  simp only [opcodeTable, List.mem_cons, List.not_mem_nil, or_false] at hrow
  unfold decodeOp
  rcases hrow with rfl | rfl | rfl | rfl | rfl | rfl | rfl | rfl | rfl | rfl <;> exact ho ▸ ⟨_, rfl, rfl⟩

/-- Any other opcode is reserved (R99). -/
theorem decodeOp_reserved {w : CommandWords} (h : ∀ row ∈ opcodeTable, opField w.cw ≠ row.op) :
    decodeOp w = .reserved .reservedOp := by
  have hop : opField w.cw ∉ opcodeTable.map OpcodeRow.op := by
    intro hmem
    obtain ⟨row, hrow, e⟩ := List.mem_map.1 hmem
    exact h row hrow e.symm
  rw [map_op_opcodeTable] at hop
  unfold decodeOp
  split
  case h_11 => rfl
  all_goals
    rename_i ho
    rw [ho] at hop
    exact absurd (by decide) hop

section
variable {w : CommandWords}

/-- R97: a word that matches a row is a command with the row's mnemonic. -/
theorem decode_of_match {row : OpcodeRow} (hrow : row ∈ opcodeTable) (h : w.cw &&& 0xFFF00000 = row.matchBits) :
    ∃ i, decode w = .command i ∧ i.mnemonic = row.mnemonic := by
  obtain ⟨ho, hr⟩ := (masked_eq_matchBits_iff hrow w.cw).1 h
  rw [decode_eq_decodeOp hr]
  exact decodeOp_of_row hrow ho

/-- R98, R99, R100: a word that matches no row is reserved. -/
theorem decode_of_no_match (h : ∀ row ∈ opcodeTable, w.cw &&& 0xFFF00000 ≠ row.matchBits) :
    ∃ why, decode w = .reserved why := by
  by_cases hr : rsvField w.cw = 0
  · rw [decode_eq_decodeOp hr]
    exact ⟨_, decodeOp_reserved fun row hrow ho => h row hrow ((masked_eq_matchBits_iff hrow w.cw).2 ⟨ho, hr⟩)⟩
  · exact ⟨_, if_pos hr⟩

/-- A command comes from a row that its word matches. -/
theorem exists_match_of_command {i : Instr} (h : decode w = .command i) :
    ∃ row ∈ opcodeTable, w.cw &&& 0xFFF00000 = row.matchBits ∧ i.mnemonic = row.mnemonic := by
  by_contra hnone
  obtain ⟨why, hwhy⟩ := decode_of_no_match (w := w) fun row hrow hmatch => by
    obtain ⟨j, hj, hm⟩ := decode_of_match hrow hmatch
    obtain rfl := Decoded.command.inj (hj.symm.trans h)
    exact hnone ⟨row, hrow, hmatch, hm⟩
  cases hwhy.symm.trans h

end

/-- No two rows have one mnemonic, and no two have one match value. -/
theorem row_eq_of_mnemonic_or_matchBits : ∀ row ∈ opcodeTable, ∀ row' ∈ opcodeTable,
    row.mnemonic = row'.mnemonic ∨ row.matchBits = row'.matchBits → row = row' := by decide

/-- Settles O2: a word that matches a row is that row's command, a word that matches none is reserved, and a row is
known by its mnemonic as by its match value. -/
theorem decodeFollowsOpcodeTable : Obligations.DecodeFollowsOpcodeTable := by
  refine fun w => ⟨fun row hrow => ⟨?_, decode_of_match hrow⟩, fun row hrow row' hrow' h h' => ?_, ?_, ?_⟩
  · rintro ⟨i, hi, hm⟩
    obtain ⟨row', hrow', hmatch, hm'⟩ := exists_match_of_command hi
    rwa [row_eq_of_mnemonic_or_matchBits row hrow row' hrow' (.inl (hm.symm.trans hm'))]
  · exact row_eq_of_mnemonic_or_matchBits row hrow row' hrow' (.inr (h.symm.trans h'))
  · rintro ⟨why, hwhy⟩ row hrow hmatch
    obtain ⟨i, hi, -⟩ := decode_of_match hrow hmatch
    cases hwhy.symm.trans hi
  · exact decode_of_no_match

/-- Settles O3: the decoder, run on each word. -/
theorem wordsWrittenOutDecode : Obligations.WordsWrittenOutDecode := by
  unfold Obligations.WordsWrittenOutDecode
  decide

end Sys2Proof
end

section
/-! PROOFS. The command port (spec/30_encoding.md R81, R99, R100): what a step does with a command that the host
presents to an idle block, and that a busy block leaves it on the port. -/

namespace Sys2Proof.Machine

section
variable {s : State} {c : Command} {rest : List HostEvent}

/-- An idle block takes the command that is presented. -/
theorem step_command_idle (hh : s.host = .command c :: rest) (hb : s.busy = false) :
    step s = runCommand exec c rest s := by
  simp only [step, stepWith, hb, Bool.false_eq_true, if_false, idleStep, hh]

/-- A busy block goes on with the command that runs. -/
theorem step_command_busy (hh : s.host = .command c :: rest) (hb : s.busy = true) : step s = tick s := by
  simp only [step, stepWith, hb, if_true, busyStep, hh]

end

/-- R99, R100: reserved bits that are not 0, or an opcode that is none of the ten, match no row of the table. -/
theorem decode_reserved {w : CommandWords}
    (h : w.cw.extractLsb' 20 4 ≠ 0 ∨
      (w.cw.extractLsb' 24 8).toNat ∉ [0x01, 0x02, 0x03, 0x04, 0x05, 0x06, 0x10, 0x11, 0x12, 0x13]) :
    ∃ why, decode w = .reserved why := by
  refine decode_of_no_match fun row hrow hmatch => ?_
  obtain ⟨ho, hr⟩ := (masked_eq_matchBits_iff hrow w.cw).1 hmatch
  rcases h with h | h
  · exact h (BitVec.eq_of_toNat_eq hr)
  · rw [← map_op_opcodeTable] at h
    exact h (List.mem_map.2 ⟨row, hrow, ho.symm⟩)

/-- Settles O6: the accepted state is the one the statement writes out. -/
theorem stepRunsDecodedCommand : Obligations.StepRunsDecodedCommand := by
  intro s c rest i hb hh hd
  rw [step_command_idle hh hb, runCommand, hd]
  rfl

/-- Settles O5: the word decodes to reserved, and the end of a rejected command undoes `busy`. -/
theorem reservedEncodingsAreNoOps : Obligations.ReservedEncodingsAreNoOps := by
  intro s c rest hb hh hw
  obtain ⟨why, hd⟩ := decode_reserved hw
  rw [step_command_idle hh hb, runCommand, hd]
  simp only [reject, finish, acceptCommand, hb]

/-! ### A command in progress -/

/-- Inside a write only the sequencer, the sink and its script move (R148, R149). -/
theorem offerByte_keeps (b : Byte) (s : State) :
    (offerByte b s).host = s.host ∧ (offerByte b s).busy = s.busy ∧ (offerByte b s).current = s.current ∧
      (offerByte b s).reports = s.reports := by
  rcases offerByte_cases b s with ⟨ready, -, e⟩ | ⟨ready, -, e⟩ <;> rw [e] <;> exact ⟨rfl, rfl, rfl, rfl⟩

/-- After a write the same command goes on with the next one, or it ends with its response (R148). -/
theorem afterWrite_goes_on_or_ends (i : Instr) (k : Kind) (s : State) :
    (afterWrite i k s).host = s.host ∧
      (((afterWrite i k s).busy = s.busy ∧ (afterWrite i k s).current = s.current ∧
          (afterWrite i k s).reports = s.reports) ∨
        (cmdReady (afterWrite i k s) = true ∧ ∃ r, (afterWrite i k s).reports = s.reports ++ [r])) := by
  unfold afterWrite
  cases s.phase with
  | idle => exact ⟨rfl, .inl ⟨rfl, rfl, rfl⟩⟩
  | prefixWrite => exact ⟨rfl, .inl ⟨rfl, rfl, rfl⟩⟩
  | payloadWrite => exact ⟨rfl, .inl ⟨rfl, rfl, rfl⟩⟩
  | checksumWrite => exact ⟨rfl, .inr ⟨rfl, _, rfl⟩⟩

/-- Settles O7: a busy block ticks its sequencer, which leaves the port alone and responds only at the end of the third
write. -/
theorem busyBlockAcceptsNoCommand : Obligations.BusyBlockAcceptsNoCommand := by
  intro s t c rest hb hh h
  rw [step_command_busy hh hb] at h
  refine ⟨by rw [cmdReady, hb, Bool.not_true], ?_⟩
  obtain ⟨i, k, -, -, -, -, ⟨-, rfl⟩ | ⟨-, rfl⟩⟩ := tick_cases h
  · obtain ⟨hhost, hbusy, hcur, hrep⟩ := offerByte_keeps (txData k s) s
    exact ⟨hhost, .inl ⟨hbusy.trans hb, hcur, hrep⟩⟩
  · obtain ⟨hhost, ⟨hbusy, hcur, hrep⟩ | hend⟩ := afterWrite_goes_on_or_ends i k s
    · exact ⟨hhost, .inl ⟨hbusy.trans hb, hcur, hrep⟩⟩
    · exact ⟨hhost, .inr hend⟩

end Sys2Proof.Machine
end

section
/-! PROOFS. The senders and the composite commands (spec/30_encoding.md R88 to R93, R101, R105;
spec/42_encoder_senders.md R170, R172): a sender frames its record, SENDDATA is PACK and then SEND, and an
absent handle fails the guard. -/

namespace Sys2Proof.Machine

/-! ### The senders -/

/-- R172: a sender whose record fits packs it and sends it as one frame. -/
theorem exec_record_frames {i : Instr} {s : State} {k : Kind} {record : List Byte}
    (h : recordOf i s = some (k, record)) (hl : record.length ≤ 1024) :
    ∃ t, exec i s = .next t ∧ AfterFrame k record .noResult s t :=
  ⟨_, exec_record h hl, sendStep_layOut k record s .noResult hl⟩

/-- Settles O23: the record of SEND_DATE is R88's, 13 bytes. -/
theorem sendDateFramesDateRecord : Obligations.SendDateFramesDateRecord :=
  fun _ _ _ _ => exec_record_frames rfl (by simp)

/-- Settles O24: the record of SEND_TIME is R89's, 6 bytes. -/
theorem sendTimeFramesTimeRecord : Obligations.SendTimeFramesTimeRecord :=
  fun _ _ _ _ => exec_record_frames rfl (by simp)

/-- Settles O25: the record of SEND_ADC is R90's, 7 bytes. -/
theorem sendAdcFramesAdcRecord : Obligations.SendAdcFramesAdcRecord :=
  fun _ _ _ => exec_record_frames rfl (by simp)

/-- Settles O26: the record of SEND_BUTTON is R92's, 4 bytes. -/
theorem sendButtonFramesButtonRecord : Obligations.SendButtonFramesButtonRecord :=
  fun _ _ _ => exec_record_frames rfl (by simp)

/-- Settles O27: the record of SEND_TEMP is R93's, 3 bytes. -/
theorem sendTempFramesTemperatureRecord : Obligations.SendTempFramesTemperatureRecord :=
  fun _ _ => exec_record_frames rfl (by simp)

/-! ### Composite commands (R105) -/

@[simp] theorem pkts_sendStep (k : Kind) (s : State) : (sendStep k s).pkts = s.pkts := by rw [sendStep_eq]

/-- A PACK step does not read the source buffer: its bytes come with it. -/
theorem layOut_src (k : Kind) (data : List Byte) (src : Mem) (s : State) :
    layOut k data.length data { s with src := src } = { layOut k data.length data s with src := src } := by
  have hc := clockRead_congr (s := { s with src := src }) (t := s) rfl rfl rfl
  rw [layOut_eq _ _ _ _ rfl, layOut_eq _ _ _ _ rfl, hc.1, hc.2]
  rfl

@[simp] theorem handleKind_handleOf (k : Kind) : handleKind (handleOf k) = some k := by cases k <;> rfl

/-- A record holds at least its identifier (R87). -/
theorem recordOf_length_pos {i : Instr} {s : State} {k : Kind} {record : List Byte}
    (h : recordOf i s = some (k, record)) : 0 < record.length := by
  cases i with
  | sendText sp len =>
    cases sp with
    | true => cases h; exact Nat.succ_pos _
    | false => cases h
  | _ => cases h <;> exact Nat.succ_pos _

/-- SENDDATA is PACK and then SEND: the PACK leaves a size that SEND accepts, and its response is all that stands
between the two steps (R170). -/
theorem senddata_eq_pack_then_send {pkt len : Nat} {k : Kind} (s : State) (hk : handleKind pkt = some k)
    (h0 : 1 ≤ len) (hl : len ≤ 1024) :
    ∃ t1 t2 t, exec (.pack pkt true len) s = .next t1 ∧ exec (.send pkt) t1 = .next t2 ∧
      exec (.senddata pkt true len) s = .next t ∧ t.pkts = t2.pkts ∧ t.sink = t2.sink := by
  have hn : payloadSize ((layOut k len (readSrc len s) s).pkt k) ≤ 1024 := by
    rw [layOut_eq _ _ _ _ (readSrc_length len s), State.pkt, Packets.get_set_same, packedMem_size hl]
    exact hl
  refine ⟨_, _, _, exec_pack_ok s hk hl, exec_send_ok _ hk hn, exec_senddata_ok s hk h0 hl, ?_, ?_⟩
  · simp only [pkts_finish, pkts_sendStep]
  · simp only [sink_finish, sink_sendStep]
    rfl

/-- A sender is SENDDATA of its record on its kind's handle (R172). -/
theorem record_eq_senddata {i : Instr} {k : Kind} {record : List Byte} {src : Mem} {s : State}
    (h : recordOf i s = some (k, record)) (hl : record.length ≤ 1024)
    (hsrc : readBytes src 0 record.length = record) :
    ∃ t t', exec i s = .next t ∧
      exec (.senddata (handleOf k) true record.length) { s with src := src } = .next t' ∧
      t.pkts = t'.pkts ∧ t.sink = t'.sink := by
  have hdata : readSrc record.length { s with src := src } = record := hsrc
  refine ⟨_, _, exec_record h hl, exec_senddata_ok _ (handleKind_handleOf k) (recordOf_length_pos h) hl, ?_, ?_⟩
  · simp only [hdata, layOut_src, pkts_finish, pkts_sendStep]
  · simp only [hdata, layOut_src, sink_finish, sink_sendStep]
    rfl

/-- Settles O22: the two equivalences. -/
theorem compositeCommandsEqualTheirParts : Obligations.CompositeCommandsEqualTheirParts :=
  ⟨fun _ _ _ s => senddata_eq_pack_then_send s, fun _ _ _ _ _ => record_eq_senddata⟩

/-! ### Absent handles (R101) -/

section
variable {pkt : Nat} (h : handleKind pkt = none) (sp : Bool) (len : Nat) (s : State)
include h

theorem exec_pack_absent : exec (.pack pkt sp len) s = .next (reject .noPacket (.status false) s) := by
  rw [exec, execPack, beginPack, h, runWhole]

theorem exec_send_absent : exec (.send pkt) s = .next (reject .noPacket (.status false) s) := by
  rw [exec, execSend, beginSend, h, runWhole]

theorem exec_senddata_absent : exec (.senddata pkt sp len) s = .next (reject .noPacket .noResult s) := by
  rw [exec, execSenddata, beginSenddata, h, runWhole]

end

/-- Settles O16: handles 0 and 7 fit their field, so the words decode, and they name no Packet. -/
theorem absentHandlesAreRejected : Obligations.AbsentHandlesAreRejected := by
  intro pkt len sp s hpkt hl
  have hp : pkt < 8 := by omega
  have habsent : handleKind pkt = none := handleKind_absent hpkt
  exact ⟨decodeOfEncodeIsIdentity _ (fits_iff.2 ⟨hp, hl⟩), decodeOfEncodeIsIdentity _ (handleFits_iff.2 hp),
    decodeOfEncodeIsIdentity _ (fits_iff.2 ⟨hp, hl⟩), exec_pack_absent habsent sp len s, exec_send_absent habsent s,
    exec_senddata_absent habsent sp len s⟩

end Sys2Proof.Machine
end

section
/-! PROOFS. The response of every command that ends (spec/30_encoding.md R84). -/

namespace Sys2Proof.Machine

/-- What R84 says of the response `r` of command `i`, when `crc` is what the register holds at the command's end. -/
def RespondsAs (i : Instr) (crc : Half) (r : Report) : Prop :=
  if i.mnemonic = "PACK" ∨ i.mnemonic = "SEND" then
    r.response.hasResult = true ∧ (r.response.ok = true ↔ r.label = none) ∧ r.response.crcBits = 0
  else if i.mnemonic = "CRC16" then
    r.response.hasResult = true ∧ (r.response.ok = true ↔ r.label = none) ∧
      r.response.crcBits = (if r.label = none then crc else 0)
  else r.response.hasResult = false ∧ r.response.ok = false ∧ r.response.crcBits = 0

/-- A rejection is reported with `ok = 0` by the commands that have a result, and not at all by the others (R200). -/
theorem respondsAs_rejected (i : Instr) (crc : Half) (why : Reject) :
    RespondsAs i crc { response := rejectResponse i, label := some why } := by
  cases i <;>
    simp [RespondsAs, Instr.mnemonic, rejectResponse, Response.hasResult, Response.ok, Response.crcBits]

/-- A command that packs and then emits a frame has no result. -/
theorem respondsAs_framed {i : Instr} {k : Kind} (hf : frameKind i = some k) (hp : packsInto i = some k) (crc : Half) :
    RespondsAs i crc { response := .noResult, label := none } := by
  cases i with
  | crc16 sp len => cases hf
  | pack pkt sp len => cases hf
  | send pkt => cases hp
  | _ => simp [RespondsAs, Instr.mnemonic, Response.hasResult, Response.ok, Response.crcBits]

/-- R84, for each way a command can have ended. -/
theorem Ended.respondsAs {i : Instr} {s t : State} {r : Report} (h : Ended i s r t) : RespondsAs i t.crc r := by
  cases h with
  | rejected why => exact respondsAs_rejected i _ why
  | checksum sp len hi v => subst hi; exact ⟨rfl, iff_of_true rfl rfl, rfl⟩
  | packed pkt sp len hi k hk data hd => subst hi; exact ⟨rfl, iff_of_true rfl rfl, rfl⟩
  | sent pkt hi k hk hn => subst hi; exact ⟨rfl, iff_of_true rfl rfl, rfl⟩
  | framed k hf hp hi data h0 hd buf => exact respondsAs_framed hf hp _

/-- Settles O35, by the ways a command can have ended. -/
theorem everyCommandGivesOneResponse : Obligations.EveryCommandGivesOneResponse := by
  intro i s t h
  obtain ⟨r, he⟩ := exec_ended h
  exact ⟨r, he.reports, he.respondsAs⟩

end Sys2Proof.Machine
end

section
/-! PROOFS. The CRC16 generator and the CRC16 command (spec/40_crc16.md). A byte step whose
byte is the register's low byte only shifts (`crcByte_low_byte`), which is why a checksum cancels itself (R123 (f)); and
the bit steps are linear, so any byte step is that shift XORed with a table entry of one byte (R126). -/

namespace Sys2Proof.Machine

/-! ### Bit steps -/

/-- R122: the low bit decides whether the constant is added to the shifted register. -/
theorem crcBit_eq_xor (r : Half) : crcBit r = (r >>> 1) ^^^ (if r.getLsbD 0 then Config.crcPoly else 0) := by
  unfold crcBit
  split
  · rfl
  · exact BitVec.xor_zero.symm

/-- The constants of two registers cancel when both low bits are 1. -/
theorem crcBit_xor (x y : Half) : crcBit (x ^^^ y) = crcBit x ^^^ crcBit y := by
  have hpoly : (if (x ^^^ y).getLsbD 0 then Config.crcPoly else 0)
      = (if x.getLsbD 0 then Config.crcPoly else 0) ^^^ (if y.getLsbD 0 then Config.crcPoly else 0) := by
    rw [BitVec.getLsbD_xor]
    cases x.getLsbD 0 <;> cases y.getLsbD 0 <;> rfl
  simp only [crcBit_eq_xor, hpoly, BitVec.ushiftRight_xor_distrib]
  ac_rfl

/-- So any number of bit steps is linear over XOR. -/
theorem crcBits_xor (n : Nat) (x y : Half) : crcBits n (x ^^^ y) = crcBits n x ^^^ crcBits n y := by
  induction n generalizing x y with
  | zero => rfl
  | succ n ih => simp only [crcBits, crcBit_xor, ih]

/-- While every bit that is tested is 0, the register is only shifted. -/
theorem crcBits_of_low_zero {n : Nat} {r : Half} (h : ∀ i < n, r.getLsbD i = false) : crcBits n r = r >>> n := by
  induction n generalizing r with
  | zero => exact (BitVec.ushiftRight_zero r).symm
  | succ n ih =>
    have hbit : crcBit r = r >>> 1 := by rw [crcBit, h 0 n.succ_pos]; rfl
    have hlow : ∀ i < n, (r >>> 1).getLsbD i = false := fun i hi => by
      rw [BitVec.getLsbD_ushiftRight]
      exact h (1 + i) (by omega)
    rw [crcBits, hbit, ih hlow, ← BitVec.shiftRight_add, Nat.add_comm]

/-! ### Byte steps -/

theorem setWidth_ushiftRight_eight (b : Byte) : b.setWidth 16 >>> 8 = 0#16 :=
  BitVec.eq_of_getLsbD_eq fun i _ => by simp

/-- A byte equal to the register's low byte clears it, so that the byte step only shifts. -/
theorem crcByte_low_byte (r : Half) : crcByte r (r.extractLsb' 0 8) = r >>> 8 := by
  have hlow : ∀ i < 8, (r ^^^ (r.extractLsb' 0 8).setWidth 16).getLsbD i = false := fun i hi => by
    simp [hi, show i < 16 by omega]
  rw [crcByte, crcBits_of_low_zero hlow, BitVec.ushiftRight_xor_distrib, setWidth_ushiftRight_eight, BitVec.xor_zero]

/-- The table entry of a byte (R126): the eight bit steps from a register that holds it. -/
def crcEntry (b : Byte) : Half := crcBits 8 (b.setWidth 16)

/-- Eight bit steps shift the high byte down and put the entry of the low byte on it. -/
theorem crcBits_eight (r : Half) : crcBits 8 r = (r >>> 8) ^^^ crcEntry (r.extractLsb' 0 8) := by
  rw [← crcByte_low_byte, crcByte, crcEntry, ← crcBits_xor, BitVec.xor_assoc, BitVec.xor_self, BitVec.xor_zero]

/-- R126: the byte that comes in reaches the low byte of the register alone. -/
theorem crcByte_eq_shift_xor_entry (r : Half) (b : Byte) :
    crcByte r b = (r >>> 8) ^^^ crcEntry ((r ^^^ b.setWidth 16).extractLsb' 0 8) := by
  rw [crcByte, crcBits_eight, BitVec.ushiftRight_xor_distrib, setWidth_ushiftRight_eight, BitVec.xor_zero]

/-- The entries of the bytes 0x00 to 0xFF in order. -/
def crcTable : List Half := (List.range 256).map fun n => crcEntry (BitVec.ofNat 8 n)

theorem getD_crcTable (b : Byte) : crcTable.getD b.toNat 0 = crcEntry b := by
  simp [crcTable, List.getD_eq_getElem?_getD, b.isLt]

/-- Settles O9: the table is `crcTable`. -/
theorem crc16ByteStepHasTableForm : Obligations.Crc16ByteStepHasTableForm :=
  ⟨crcTable, by rw [crcTable, List.length_map, List.length_range],
    fun r b => by rw [getD_crcTable, crcByte_eq_shift_xor_entry]⟩

/-! ### Sequences of bytes -/

/-- R123 (c): the checksum of the first part is the register that the second part starts from. -/
theorem crc16_append (a b : List Byte) : crc16 (a ++ b) = crcFrom (crc16 a) b := List.foldl_append

/-- The bytes of the register, low byte first, shift it out. -/
theorem crcFrom_le16_self (r : Half) : crcFrom r (le16 r) = 0 := by
  have hhigh : r.extractLsb' 8 8 = (r >>> 8).extractLsb' 0 8 :=
    BitVec.eq_of_getLsbD_eq fun i _ => by simp
  calc crcFrom r (le16 r) = crcByte (crcByte r (r.extractLsb' 0 8)) (r.extractLsb' 8 8) := rfl
    _ = r >>> 8 >>> 8 := by rw [crcByte_low_byte, hhigh, crcByte_low_byte]
    _ = 0 := by rw [← BitVec.shiftRight_add]; exact BitVec.ushiftRight_eq_zero (by decide)

/-- R123 (e): the byte steps of the check string, each from the value before it. -/
theorem crcByte_check_string :
    crcByte 0xFFFF 0x31 = 0x947E ∧ crcByte 0x947E 0x32 = 0xF595 ∧ crcByte 0xF595 0x33 = 0x7A75 ∧
      crcByte 0x7A75 0x34 = 0x30BA ∧ crcByte 0x30BA 0x35 = 0xA471 ∧ crcByte 0xA471 0x36 = 0x32E4 ∧
      crcByte 0x32E4 0x37 = 0x9D73 ∧ crcByte 0x9D73 0x38 = 0x37DD ∧ crcByte 0x37DD 0x39 = 0x4B37 := by
  refine ⟨?_, ?_, ?_, ?_, ?_, ?_, ?_, ?_, ?_⟩ <;> decide

/-- R123 (f): the checksum of the check string's first byte, taken in the opposite order, does not cancel itself. -/
theorem crcFrom_swapped_checksum : crcFrom 0x947E (le16 0x947E).reverse = 0xEFCE := by
  have hhigh : crcByte 0x947E 0x94 = 0x8F15 := by decide
  have hlow : crcByte 0x8F15 0x7E = 0xEFCE := by decide
  have hbytes : (le16 0x947E).reverse = [0x94, 0x7E] := by decide
  rw [hbytes, crcFrom, List.foldl_cons, hhigh, List.foldl_cons, hlow, List.foldl_nil]

/-- Settles O8: a sequence of bytes is a fold, and a checksum shifts itself out of the register; the check string is
run step by step, and its first byte alone shows that the order of the checksum's bytes matters. -/
theorem crc16StreamsAndLeavesZeroResidue : Obligations.Crc16StreamsAndLeavesZeroResidue := by
  have hfirst : crc16 [0x31] = 0x947E := crcByte_check_string.1
  refine ⟨rfl, crc16_append, ?check, fun bs => ?residue, [0x31], ?swapped⟩
  case check =>
    obtain ⟨h1, h2, h3, h4, h5, h6, h7, h8, h9⟩ := crcByte_check_string
    simp only [List.range_succ, List.range_zero, List.nil_append, List.cons_append, List.map_cons, List.map_nil,
      List.take_succ_cons, List.take_zero, List.take_nil, crc16, crcFrom, Config.crcInit, List.foldl_cons,
      List.foldl_nil, h1, h2, h3, h4, h5, h6, h7, h8, h9]
  case residue => rw [crc16_append, crcFrom_le16_self]
  case swapped => rw [crc16_append, hfirst, crcFrom_swapped_checksum]; decide

/-! ### The command -/

/-- R124: with its source, or with nothing to read, CRC16 ends with the checksum in `crc` and in the response. -/
theorem exec_crc16_ok {sp : Bool} {len : Nat} (s : State) (hl : len ≤ 65536) (h : sp = true ∨ len = 0) :
    exec (.crc16 sp len) s = .next (finish (.checksum (crc16 (readSrc len s))) none
      { s with crc := crc16 (readSrc len s) }) := by
  have hsource : ¬ (0 < len ∧ sp = false) := by rintro ⟨h0, rfl⟩; exact h.elim Bool.false_ne_true h0.ne'
  rw [exec, execCrc16, beginCrc16, if_neg hsource, if_neg (Nat.not_lt.2 hl), runWhole]

/-- R125: an absent source fails the guard when there is something to read. -/
theorem exec_crc16_absent {len : Nat} (s : State) (h0 : 0 < len) :
    exec (.crc16 false len) s = .next (reject .noSource (.status false) s) := by
  rw [exec, execCrc16, beginCrc16, if_pos ⟨h0, rfl⟩, runWhole]

/-- Settles O10: the state that `finish` leaves is the one the statement writes out. -/
theorem crc16AnswersChecksumOfSource : Obligations.Crc16AnswersChecksumOfSource :=
  fun _ _ s hl h => exec_crc16_ok s hl.le h

/-- Settles O11: the guard fails for `len` above 0, and for `len = 0` the checksum is that of no bytes. -/
theorem crc16WithoutSourceIsRejected : Obligations.Crc16WithoutSourceIsRejected :=
  ⟨fun _ s h0 => ⟨exec_crc16_absent s h0, rfl⟩, ⟨rfl, rfl, rfl⟩,
    fun s => ⟨_, exec_crc16_ok s (Nat.zero_le _) (.inr rfl), rfl⟩⟩

end Sys2Proof.Machine
end

section
/-! PROOFS. The byte-level machine keeps the invariant (spec/41_framer_pack_send.md R148; spec/10_state.md R25, R35): a
command that emits a frame is left where write 1 is open and nothing of it is sent. -/

namespace Sys2Proof.Machine

/-- R172: the Packet a begun command is about to send is the one its operands name. -/
theorem frameKind_of_framing {i : Instr} {k : Kind} {s t : State} (h : beginCommand i s = .framing k t) :
    frameKind i = some k := by
  have began := beginCommand_began i s
  rw [h] at began
  cases began with
  | sending pkt hi _ hk hn => rw [hi, frameKind]; exact hk
  | framed _ hf => exact hf

/-- Opening write 1 of a command of which nothing is sent yet is a good mid-frame state (R25, R148). -/
theorem Unsent.inv_openWrite {i : Instr} {k : Kind} {s : State} (h : Unsent (some i) s) (hk : frameKind i = some k) :
    (openWrite .prefixWrite 6 s).inv = true := by
  refine inv_iff.2 ⟨h.clock, h.packets, h.source, h.host, h.record, ?_⟩
  rw [busy_openWrite, h.busy, if_pos rfl]
  exact midFrameOk_iff.2 ⟨i, k, s.sink, h.current, hk, Phase.noConfusion, Nat.zero_le _, h.frames, rfl⟩

/-- A command started byte by byte is left in a good state, ended or in mid-frame. -/
theorem Unsent.inv_of_execBytes {i : Instr} {s t : State} (h : Unsent (some i) s) (he : execBytes i s = .next t) :
    t.inv = true := by
  unfold execBytes at he
  cases hb : beginCommand i s with
  | ended u => rw [hb] at he; cases he; exact h.inv_of_ended hb
  | framing k u => rw [hb] at he; cases he; exact (h.of_framing hb).inv_openWrite (frameKind_of_framing hb)
  | stopped f => rw [hb] at he; cases he

/-- Settles O43, by the ways a step can go on: only the start of a command differs from the command-level machine's. -/
theorem byteStepKeepsInvariant : Obligations.ByteStepKeepsInvariant :=
  fun _ _ hs h => inv_of_stepWith Unsent.inv_of_execBytes hs h

end Sys2Proof.Machine
end

section
/-! PROOFS. PACK and SEND as one step (spec/41_framer_pack_send.md R141, R142, R145 to R147): what a PACK writes, what
rejects it, and the three writes of a SEND, also of a buffer that was never packed. -/

namespace Sys2Proof.Machine

/-! ### PACK -/

/-- R142: what a PACK step and the end of its command leave. -/
theorem afterPack_layOut (k : Kind) (data : List Byte) (response : Response) (s : State) (h : data.length ≤ 1024) :
    AfterPack k data response s (finish response none (layOut k data.length data s)) := by
  refine ⟨packedMem (s.pkt k) (trunc16 (clockRead s).1) data.length data, packedMem_packedAs h, ?_⟩
  simp only [layOut_eq _ _ _ _ rfl, finish, framePrefix_eq]

/-- Settles O12: the source bytes are as many as the length says. -/
theorem packLaysOutPacket : Obligations.PackLaysOutPacket := by
  intro pkt len k s hk hl
  have hdata : (readSrc len s).length = len := readSrc_length len s
  have hpack := afterPack_layOut k (readSrc len s) (.status true) s (hdata.trans_le hl)
  rw [hdata] at hpack
  exact ⟨_, exec_pack_ok s hk hl, hpack⟩

section
variable {pkt : Nat} {k : Kind} (hk : handleKind pkt = some k) (len : Nat) (s : State)
include hk

theorem exec_pack_without_source : exec (.pack pkt false len) s = .next (reject .noSource (.status false) s) := by
  simp only [exec, execPack, beginPack, hk, if_true, runWhole]

theorem exec_pack_too_long {len : Nat} (hl : 1024 < len) :
    exec (.pack pkt true len) s = .next (reject .tooLong (.status false) s) := by
  simp [exec, execPack, beginPack, hk, packStep, hl, runWhole]

end

/-- Settles O13, guard by guard in the order of R203. -/
theorem rejectedPackIsNoOp : Obligations.RejectedPackIsNoOp := by
  intro pkt len sp s hguard
  cases hk : handleKind pkt with
  | none => exact exec_pack_absent hk sp len s
  | some k =>
    cases sp with
    | false => exact exec_pack_without_source hk len s
    | true =>
      have hl : 1024 < len := by simpa [hk] using hguard
      exact exec_pack_too_long hk s hl

/-! ### SEND -/

/-- R85: the bytes of the three writes of a frame, in order. -/
theorem sinkBytes_inFlight_end (m : Mem) :
    sinkBytes (inFlight m .checksumWrite 2) = readBytes m 0 (6 + payloadSize m) ++ readBytes m 1030 2 := by
  simp [sinkBytes, inFlight, readBytes_append, Config.offChecksum]

/-- Settles O15: a SEND step adds the whole frame of its buffer. -/
theorem sendEmitsThreeWrites : Obligations.SendEmitsThreeWrites := by
  intro pkt k s hk hn n ws
  have hbytes : sinkBytes ws = readBytes (s.pkt k) 0 (6 + n) ++ readBytes (s.pkt k) 1030 2 :=
    sinkBytes_inFlight_end (s.pkt k)
  refine ⟨?_, hbytes, ?_⟩
  · rw [exec_send_ok s hk hn, sendStep_eq]
    rfl
  · rw [hbytes, List.length_append, readBytes_length, readBytes_length]
    omega

/-- R147: the frame of a buffer that reads 0 throughout. -/
theorem inFlight_of_zeros {m : Mem} (h : ∀ a < 1032, Mem.read m a = 0) :
    payloadSize m = 0 ∧ inFlight m .checksumWrite 2 =
      [{ count := 6, bytes := [0, 0, 0, 0, 0, 0] }, { count := 0, bytes := [] }, { count := 2, bytes := [0, 0] }] := by
  have hsize : payloadSize m = 0 := by
    rw [payloadSize, read16, h _ (by decide), h _ (by decide)]
    rfl
  refine ⟨hsize, ?_⟩
  simp only [inFlight, hsize, readBytes, Config.offChecksum, Nat.reduceAdd, h 0 (by decide), h 1 (by decide),
    h 2 (by decide), h 3 (by decide), h 4 (by decide), h 5 (by decide), h 1030 (by decide), h 1031 (by decide)]

/-- R147: the checksum of six zero bytes, each byte step from the value before it. -/
theorem crc16_six_zeros : crc16 [0, 0, 0, 0, 0, 0] = 0x1B00 := by
  have h1 : crcByte 0xFFFF 0 = 0x40BF := by decide
  have h2 : crcByte 0x40BF 0 = 0xB001 := by decide
  have h3 : crcByte 0xB001 0 = 0xC071 := by decide
  have h4 : crcByte 0xC071 0 = 0x2400 := by decide
  have h5 : crcByte 0x2400 0 = 0x0024 := by decide
  have h6 : crcByte 0x0024 0 = 0x1B00 := by decide
  simp only [crc16, crcFrom, Config.crcInit, List.foldl_cons, List.foldl_nil, h1, h2, h3, h4, h5, h6]

/-- Settles O17: the stored length is 0, so the frame is that of a buffer of zeros. -/
theorem sendOfUnpackedBufferSendsZeros : Obligations.SendOfUnpackedBufferSendsZeros := by
  refine ⟨fun pkt k s hk hzero => ?_, crc16_six_zeros⟩
  obtain ⟨hsize, hframe⟩ := inFlight_of_zeros hzero
  have hn : payloadSize (s.pkt k) ≤ 1024 := hsize ▸ Nat.zero_le 1024
  rw [← hframe]
  exact exec_send_frame s hk hn

end Sys2Proof.Machine
end

section
/-! PROOFS. A step of the byte sequencer (spec/41_framer_pack_send.md R148, R149): a byte joins the open write or the
sequencer waits, and a complete write makes way for the next or for the end of the command. -/

namespace Sys2Proof.Machine

/-- A busy block with no command on the port, or one that waits there, goes on with its sequencer (R81). -/
theorem step_busy {s : State} (hb : s.busy = true) (hh : s.host = [] ∨ ∃ c more, s.host = .command c :: more) :
    step s = tick s := by
  rcases hh with hh | ⟨c, more, hh⟩
  · simp only [step, stepWith, hb, if_true, busyStep, hh]
  · exact step_command_busy hh hb

/-- R213: a byte is offered while the open write is short of its count. -/
theorem txValid_iff {k : Kind} {s : State} : txValid k s = true ↔ s.idx.toNat < phaseCount (s.pkt k) s.phase :=
  decide_eq_true_iff

section
variable {s : State} {i : Instr} {k : Kind} (hc : s.current = some i) (hk : frameKind i = some k)
  (hn : payloadSize (s.pkt k) ≤ 1024) (hp : s.phase ≠ .idle)
include hc hk hn hp

theorem tick_of_txValid (hv : txValid k s = true) : tick s = .next (offerByte (txData k s) s) := by
  rw [tick_of hc hk hn hp, if_pos (txValid_iff.1 hv)]

theorem tick_of_not_txValid (hv : txValid k s = false) : tick s = .next (afterWrite i k s) := by
  rw [tick_of hc hk hn hp, if_neg fun h => Bool.false_ne_true (hv.symm.trans (txValid_iff.2 h))]

end

/-- R148: a byte that the sink accepts joins the open write. -/
theorem offerByte_accepted {s : State} {rest : List Bool} {ws : List Write} {w : Write} (b : Byte)
    (hr : s.txReady = true :: rest ∨ s.txReady = [] ∧ rest = []) (hs : s.sink = ws ++ [w]) :
    offerByte b s = { s with
      txReady := rest
      idx := s.idx + 1
      sink := ws ++ [{ count := w.count, bytes := w.bytes ++ [b] }] } := by
  have hjoin := extendLast_snoc ws w b
  rw [← hs] at hjoin
  rcases hr with hr | ⟨hr, rfl⟩
  · simp only [offerByte, hr, emitByte, hjoin]
  · simp only [offerByte, hr, emitByte, hjoin]

/-- R149: while the sink does not accept, only its script moves. -/
theorem offerByte_refused {s : State} {rest : List Bool} (b : Byte) (hr : s.txReady = false :: rest) :
    offerByte b s = { s with txReady := rest } := by
  simp only [offerByte, hr]

/-- Settles O40: the step is a tick that offers the byte at `idx`. -/
theorem sinkTakesOneByteOrSequencerWaits : Obligations.SinkTakesOneByteOrSequencerWaits := by
  intro s i k ws w rest hb hh hc hk hp hn hv hsink
  rw [step_busy hb hh, tick_of_txValid hc hk hn hp hv]
  exact ⟨fun hr => congrArg Host.Outcome.next (offerByte_accepted _ hr hsink),
    fun hr => congrArg Host.Outcome.next (offerByte_refused _ hr)⟩

/-- R84: SEND is the one command whose frame is answered with a result. -/
theorem frameResponse_eq (i : Instr) :
    frameResponse i = if i.mnemonic = "SEND" then .status true else .noResult := by
  cases i <;> rfl

/-- Settles O41: the step is a tick that leaves the complete write. -/
theorem sequencerOpensWritesInOrder : Obligations.SequencerOpensWritesInOrder := by
  intro s i k hb hh hc hk hn hv
  have hstep : s.phase ≠ .idle → step s = .next (afterWrite i k s) := fun hp => by
    rw [step_busy hb hh, tick_of_not_txValid hc hk hn hp hv]
  refine ⟨fun hp => ?_, fun hp => ?_, fun hp => ?_⟩ <;>
    rw [hstep (by rw [hp]; exact Phase.noConfusion), afterWrite, hp]
  · rfl
  · rfl
  · rw [← frameResponse_eq]
    rfl

end Sys2Proof.Machine
end

section
/-! PROOFS. The byte sequencer refines the command-level step (spec/41_framer_pack_send.md R148, R149): each step in
mid-frame leaves less to do and leads to the same end, and that end is the one the command-level step gives. -/

namespace Sys2Proof

/-- The decoder's fields have their width (R82). -/
theorem wellFormed_of_decode {w : CommandWords} {i : Instr} (h : decode w = .command i) : i.wellFormed = true := by
  have hpkt : pktField w.cw < 8 := BitVec.isLt _
  have hlen : lenField w.cw < 65536 := BitVec.isLt _
  unfold decode decodeOp at h
  split at h
  · cases h
  · split at h <;> cases h <;>
      simp only [Instr.wellFormed, fits_iff, handleFits_iff, lengthFits_iff, hpkt, hlen, and_self]

end Sys2Proof

namespace Sys2Proof.Machine

/-! ### Runs of a busy block -/

/-- The byte-level machine goes from `s` to its third argument in so many steps, each from a busy state. -/
inductive BusyRun : Nat → State → State → Prop
  | done (s : State) : BusyRun 0 s s
  | step {n : Nat} {s t u : State} (hb : s.busy = true) (hs : byteStep s = .next t) (hr : BusyRun n t u) :
      BusyRun (n + 1) s u

theorem BusyRun.byteRun_eq {n : Nat} {s u : State} (h : BusyRun n s u) : byteRun n s = .next u := by
  induction h with
  | done s => rfl
  | step hb hs hr ih => rw [byteRun_succ _ hs, ih]

theorem BusyRun.busy_before {n : Nat} {s u : State} (h : BusyRun n s u) :
    ∀ m < n, ∃ v, byteRun m s = .next v ∧ v.busy = true := by
  induction h with
  | done s => exact fun m hm => absurd hm (Nat.not_lt_zero m)
  | step hb hs hr ih =>
    rintro (_ | m) hm
    · exact ⟨_, rfl, hb⟩
    · rw [byteRun_succ m hs]
      exact ih m (Nat.lt_of_succ_lt_succ hm)

/-! ### A frame in flight -/

/-- `s` is inside the frame of `PKT[k]` for command `i`, with nothing on the port; `ws` are the writes before the
frame (R25, R148). -/
structure Emitting (i : Instr) (k : Kind) (ws : List Write) (s : State) : Prop where
  busy : s.busy = true
  host : s.host = []
  current : s.current = some i
  kind : frameKind i = some k
  size : payloadSize (s.pkt k) ≤ 1024
  phase : s.phase ≠ .idle
  idx : s.idx.toNat ≤ phaseCount (s.pkt k) s.phase
  sink : s.sink = ws ++ inFlight (s.pkt k) s.phase s.idx.toNat

/-- The steps to the end of the frame of `PKT[k]`: the sequencer's own, and at most one more for each entry of the
sink's script (R149). -/
def ticksLeft (k : Kind) (s : State) : Nat :=
  stepsLeft (payloadSize (s.pkt k)) s.phase s.idx.toNat + s.txReady.length

/-- `t` is nearer than `s` to the same end of the same frame. -/
structure Nearer (i : Instr) (k : Kind) (ws : List Write) (s t : State) : Prop where
  emitting : Emitting i k ws t
  fewer : ticksLeft k t < ticksLeft k s
  out : afterFrameOut i k ws t = afterFrameOut i k ws s

theorem stepsLeft_pos (n i : Nat) {ph : Phase} (hp : ph ≠ .idle) : 0 < stepsLeft n ph i := by
  cases ph with
  | idle => exact absurd rfl hp
  | _ => simp only [stepsLeft]; omega

theorem stepsLeft_succ_lt {m : Mem} {ph : Phase} {i : Nat} (hi : i < phaseCount m ph) :
    stepsLeft (payloadSize m) ph (i + 1) < stepsLeft (payloadSize m) ph i := by
  cases ph <;> simp only [phaseCount, stepsLeft] at * <;> omega

section
variable {i : Instr} {k : Kind} {ws : List Write} {s : State}

/-- R148, R149: a byte offered, whether the sink accepts it or not. -/
theorem Emitting.offerByte (h : Emitting i k ws s) (hi : s.idx.toNat < phaseCount (s.pkt k) s.phase) :
    Nearer i k ws s (offerByte (txData k s) s) := by
  rcases offerByte_cases (txData k s) s with ⟨rest, hr, e⟩ | ⟨rest, hr, e⟩ <;> rw [e]
  · have hfewer : rest.length < s.txReady.length := by rw [hr]; exact Nat.lt_succ_self _
    exact ⟨{ h with }, Nat.add_lt_add_left hfewer _, rfl⟩
  · have hidx : (s.idx + 1).toNat = s.idx.toNat + 1 := idx_succ (hi.trans_le (phaseCount_le h.size s.phase))
    have hjoin : extendLast s.sink (txData k s) = ws ++ inFlight (s.pkt k) s.phase (s.idx + 1).toNat := by
      rw [h.sink, hidx]
      exact extendLast_inFlight ws (s.pkt k) s.phase s.idx.toNat h.phase
    have hfewer : stepsLeft (payloadSize (s.pkt k)) s.phase (s.idx + 1).toNat
        < stepsLeft (payloadSize (s.pkt k)) s.phase s.idx.toNat := hidx ▸ stepsLeft_succ_lt hi
    have hready : rest.length ≤ s.txReady.length := by
      rcases hr with hr | ⟨hr, rfl⟩ <;> rw [hr]
      exact Nat.le_succ _
    exact ⟨{ h with idx := hidx.le.trans hi, sink := hjoin }, Nat.add_lt_add_of_lt_of_le hfewer hready, rfl⟩

/-- R148: the next write is opened. -/
theorem Emitting.openWrite (h : Emitting i k ws s) {ph : Phase} {count : Nat} (hp : ph ≠ .idle)
    (hsink : s.sink ++ [{ count := count, bytes := [] }] = ws ++ inFlight (s.pkt k) ph 0)
    (hfewer : stepsLeft (payloadSize (s.pkt k)) ph 0 < stepsLeft (payloadSize (s.pkt k)) s.phase s.idx.toNat) :
    Nearer i k ws s (openWrite ph count s) :=
  ⟨{ h with phase := hp, idx := Nat.zero_le _, sink := hsink }, Nat.add_lt_add_right hfewer _, rfl⟩

/-- R148: from a complete write the sequencer goes on to the next one, or the frame is out. -/
theorem Emitting.afterWrite (h : Emitting i k ws s) (hi : s.idx.toNat = phaseCount (s.pkt k) s.phase) :
    Nearer i k ws s (afterWrite i k s) ∨
      { afterWrite i k s with txReady := [] } = afterFrameOut i k ws s := by
  have hsink := h.sink
  rw [hi] at hsink
  unfold Machine.afterWrite
  cases hph : s.phase with
  | idle => exact absurd hph h.phase
  | prefixWrite =>
    rw [hph] at hi hsink
    exact .inl (h.openWrite Phase.noConfusion (by simp [hsink, inFlight, phaseCount])
      (by rw [hi, hph]; simp only [stepsLeft, phaseCount]; omega))
  | payloadWrite =>
    rw [hph] at hi hsink
    exact .inl (h.openWrite Phase.noConfusion (by simp [hsink, inFlight, phaseCount])
      (by rw [hi, hph]; simp only [stepsLeft, phaseCount]; omega))
  | checksumWrite =>
    rw [hph] at hsink
    refine .inr ?_
    simp only [afterFrameOut, finish, hsink, phaseCount]

/-- One step in mid-frame: nearer to the end of the frame, or there. -/
theorem Emitting.byteStep (h : Emitting i k ws s) :
    ∃ t, byteStep s = .next t ∧ (Nearer i k ws s t ∨ { t with txReady := [] } = afterFrameOut i k ws s) := by
  rw [byteStep_midFrame h.busy h.host h.current h.kind h.size h.phase]
  by_cases hi : s.idx.toNat < phaseCount (s.pkt k) s.phase
  · exact ⟨_, rfl, if_pos hi ▸ .inl (h.offerByte hi)⟩
  · exact ⟨_, rfl, if_neg hi ▸ h.afterWrite (h.idx.antisymm (Nat.not_lt.1 hi))⟩

end

/-- R148, R149: from inside a frame the byte-level machine runs to its end, by induction on the steps left. -/
theorem Emitting.run {i : Instr} {k : Kind} {ws : List Write} (left : Nat) {s : State} (h : Emitting i k ws s)
    (hleft : ticksLeft k s ≤ left) :
    ∃ n u, n ≤ left ∧ BusyRun n s u ∧ { u with txReady := [] } = afterFrameOut i k ws s := by
  induction left generalizing s with
  | zero => exact absurd hleft (Nat.not_le.2 (Nat.add_pos_left (stepsLeft_pos _ _ h.phase) _))
  | succ left ih =>
    obtain ⟨t, ht, hnear | hout⟩ := h.byteStep
    · obtain ⟨n, u, hn, hrun, hu⟩ := ih hnear.emitting (Nat.le_of_lt_succ (hnear.fewer.trans_le hleft))
      exact ⟨n + 1, u, Nat.succ_le_succ hn, .step h.busy ht hrun, hu.trans hnear.out⟩
    · exact ⟨1, t, Nat.le_add_left 1 left, .step h.busy ht (.done t), hout⟩

/-! ### A command -/

/-- A command of the decoder, in a state whose stored sizes are good, does not stop the machine (R23 (a), R82). -/
theorem beginCommand_ne_stopped {i : Instr} {s : State} (hw : i.wellFormed = true)
    (hn : ∀ k, payloadSize (s.pkt k) ≤ 1024) (f : Fault) : beginCommand i s ≠ .stopped f := by
  intro hb
  have began := beginCommand_began i s
  rw [hb] at began
  cases began with
  | stopped _ hwhy =>
    rcases hwhy with ⟨sp, len, rfl, hlen⟩ | ⟨pkt, k, rfl, hk, hsize⟩
    · exact absurd (lengthFits_iff.1 hw) (Nat.lt_asymm hlen)
    · exact absurd (hn k) (Nat.not_le.2 hsize)

/-- What a begun command leaves of the port and of the sink's script. -/
theorem keeps_of_framing {i : Instr} {k : Kind} {s t : State} (h : beginCommand i s = .framing k t) :
    t.host = s.host ∧ t.txReady = s.txReady := by
  have began := beginCommand_began i s
  rw [h] at began
  cases began with
  | sending => exact ⟨rfl, rfl⟩
  | framed =>
    rw [layOut_eq _ _ _ _ rfl]
    exact ⟨rfl, rfl⟩

/-- The byte-level machine, left in `v` by its first step, is in `t` after at most 1035 steps more and those in which
the sink refuses, but for the sink's script, and busy until then. -/
def Reaches (ready : List Bool) (v t : State) : Prop :=
  ∃ n u, n ≤ 1035 + ready.length ∧ BusyRun n v u ∧ { u with txReady := [] } = { t with txReady := [] }

theorem Reaches.refl (ready : List Bool) (t : State) : Reaches ready t t :=
  ⟨0, t, Nat.zero_le _, .done t, rfl⟩

/-- R23 (a): every stored size is one that SEND accepts. -/
theorem Unsent.size {held : Option Instr} {s : State} (h : Unsent held s) (k : Kind) :
    payloadSize (s.pkt k) ≤ 1024 := by
  obtain ⟨-, -, hsize, -⟩ := packetOk_iff.1 (packetsOk_iff.1 h.packets k)
  exact hsize

/-- R148: from write 1 the sequencer sends the frame that the SEND step sends. -/
theorem Unsent.reaches_sendStep {i : Instr} {k : Kind} {s : State} (h : Unsent (some i) s) (hh : s.host = [])
    (hk : frameKind i = some k) :
    Reaches s.txReady (openWrite .prefixWrite 6 s) (finish (frameResponse i) none (sendStep k s)) := by
  have hsize := h.size k
  have hemit : Emitting i k s.sink (openWrite .prefixWrite 6 s) :=
    { busy := h.busy, host := hh, current := h.current, kind := hk, size := hsize, phase := Phase.noConfusion
      idx := Nat.zero_le _, sink := rfl }
  have hleft : ticksLeft k (openWrite .prefixWrite 6 s) ≤ 1035 + s.txReady.length := by
    rw [show ticksLeft k (openWrite .prefixWrite 6 s)
      = 6 + 1 + payloadSize (s.pkt k) + 1 + 3 + s.txReady.length from rfl]
    omega
  obtain ⟨n, u, hn, hrun, hu⟩ := hemit.run _ hleft
  refine ⟨n, u, hn, hrun, hu.trans ?_⟩
  rw [sendStep_eq]
  rfl

/-- Run as one step or byte by byte, a command comes to the same end. -/
theorem Unsent.exec_refined {i : Instr} {s : State} (h : Unsent (some i) s) (hh : s.host = [])
    (hw : i.wellFormed = true) :
    ∃ t v, exec i s = .next t ∧ execBytes i s = .next v ∧ Reaches s.txReady v t := by
  rw [exec_eq_runWhole, execBytes]
  cases hb : beginCommand i s with
  | ended t => exact ⟨t, t, rfl, rfl, .refl _ t⟩
  | framing k u =>
    obtain ⟨hhost, hready⟩ := keeps_of_framing hb
    have hreach := (h.of_framing hb).reaches_sendStep (hhost.trans hh) (frameKind_of_framing hb)
    exact ⟨_, _, rfl, rfl, hready ▸ hreach⟩
  | stopped f => exact absurd hb (beginCommand_ne_stopped hw h.size f)

theorem byteStep_command_idle {s : State} {c : Command} {rest : List HostEvent} (hh : s.host = .command c :: rest)
    (hb : s.busy = false) : byteStep s = runCommand execBytes c rest s := by
  simp only [byteStep, stepWith, hb, Bool.false_eq_true, if_false, idleStep, hh]

/-- A command alone on the port of an idle good block comes to the same end in both machines. -/
theorem step_refined {s : State} {c : Command} (hs : s.inv = true) (hb : s.busy = false) (hh : s.host = [.command c]) :
    ∃ t v, step s = .next t ∧ byteStep s = .next v ∧ Reaches s.txReady v t := by
  rw [step_command_idle hh hb, byteStep_command_idle hh hb, runCommand, runCommand]
  cases hd : decode c.words with
  | command i => exact (unsent_acceptCommand (some i) hs hb hh).exec_refined rfl (wellFormed_of_decode hd)
  | reserved why => exact ⟨_, _, rfl, rfl, .refl _ _⟩

/-- Settles O39: the first step accepts the command, and the busy run of its frame follows. -/
theorem byteSequencerRefinesCommands : Obligations.ByteSequencerRefinesCommands := by
  intro s c hs hb hh
  obtain ⟨t, v, hstep, hbyte, n, u, hn, hrun, hu⟩ := step_refined hs hb hh
  refine ⟨t, n + 1, u, hstep, ?_, Nat.succ_pos n, by omega, hu, ?_⟩
  · rw [byteRun_succ n hbyte, hrun.byteRun_eq]
  · rintro (_ | m) hpos hm
    · exact absurd hpos (Nat.lt_irrefl 0)
    · rw [byteRun_succ m hbyte]
      exact hrun.busy_before m (Nat.lt_of_succ_lt_succ hm)

end Sys2Proof.Machine
end

section
/-! PROOFS. SENDDATA and SEND_TEXT (spec/42_encoder_senders.md R170, R171, R176, R179, R180): the lengths for which a
frame is sent, and the no-op for all the others. -/

namespace Sys2Proof.Machine

/-! ### The SENDDATA steps that a size rejects (R171) -/

theorem beginData_empty (k : Kind) (data : List Byte) (s : State) :
    beginData k 0 data s = .ended (reject .zeroSize .noResult s) := by
  rw [beginData, if_pos rfl]

theorem beginData_too_long {size : Nat} (k : Kind) (data : List Byte) (s : State) (h : 1024 < size) :
    beginData k size data s = .ended (reject .tooLong .noResult s) := by
  rcases beginData_cases k size data s with ⟨h0, -⟩ | ⟨-, e⟩ | ⟨-, hle, -⟩
  · omega
  · exact e
  · omega

/-! ### SENDDATA -/

/-- Settles O20: the SEND step sends the frame that the PACK step lays out of the source bytes. -/
theorem senddataPacksAndSends : Obligations.SenddataPacksAndSends := by
  intro pkt len k s hk h0 hl
  have hdata : (readSrc len s).length = len := readSrc_length len s
  have hframe := sendStep_layOut k (readSrc len s) s .noResult (hdata.trans_le hl)
  rw [hdata] at hframe
  exact ⟨_, exec_senddata_ok s hk h0 hl, hframe⟩

section
variable {pkt : Nat} {k : Kind} (hk : handleKind pkt = some k) (s : State)
include hk

theorem exec_senddata_without_source (len : Nat) :
    exec (.senddata pkt false len) s = .next (reject .noSource .noResult s) := by
  simp only [exec, execSenddata, beginSenddata, hk, if_true, runWhole]

/-- With handle and source present, SENDDATA is its steps on the source bytes (R170). -/
theorem exec_senddata_present (len : Nat) :
    exec (.senddata pkt true len) s = runWhole .noResult (beginData k len (readSrc len s) s) := by
  simp only [exec, execSenddata, beginSenddata, hk, Bool.true_eq_false, if_false]

end

/-- Settles O21, guard by guard in the order of R203. -/
theorem rejectedSenddataIsNoOp : Obligations.RejectedSenddataIsNoOp := by
  intro pkt len sp s hguard
  cases hk : handleKind pkt with
  | none => exact exec_senddata_absent hk sp len s
  | some k =>
    cases sp with
    | false => exact exec_senddata_without_source hk s len
    | true =>
      rw [exec_senddata_present hk]
      have hsize : len = 0 ∨ 1024 < len := by simpa [hk] using hguard
      rcases hsize with rfl | hlong
      · rw [beginData_empty]
        rfl
      · have h0 : len ≠ 0 := by omega
        rw [beginData_too_long k _ s hlong, if_neg (Option.some_ne_none k), if_neg Bool.noConfusion, if_neg h0]
        rfl

/-! ### SEND_TEXT -/

/-- Settles O30: the guard of the source comes before the length. -/
theorem absentTextIsRejected : Obligations.AbsentTextIsRejected := by
  intro len s
  rw [exec, execSendText, beginText, if_pos rfl, runWhole]
  rfl

/-- The clamp leaves a text of at most 1024 bytes as it is (R91, R96). -/
theorem recordOf_sendText {len : Nat} (s : State) (h : len ≤ 1024) :
    recordOf (.sendText true len) s =
      some (.textMessage, [0x04] ++ le16 (BitVec.ofNat 16 len) ++ readBytes s.src 0 len) := by
  rw [recordOf, if_pos rfl, min_eq_left h]

/-- A text record that a PACK accepts is one of a text of at most 1021 bytes (R94). -/
theorem textRecord_length_le {len : Nat} (s : State) (h : len ≤ 1021) :
    ([0x04] ++ le16 (BitVec.ofNat 16 len) ++ readBytes s.src 0 len).length ≤ 1024 := by
  simp only [List.length_append, List.length_cons, List.length_nil, le16_length, readBytes_length]
  omega

/-- The text is clamped to 1024 bytes, its record is above 1024 bytes all the same, and `REC` is gone at the end
(R179). -/
theorem exec_sendText_too_long {len : Nat} (s : State) (h : 1021 < len) :
    exec (.sendText true len) s = .next (reject .tooLong .noResult s) := by
  have hsize : 1024 < 3 + clampText len := by
    simp only [clampText, Config.textClamp]
    omega
  rw [exec, execSendText, beginText, if_neg Bool.noConfusion, beginRecord, beginData_too_long _ _ _ hsize, runWhole]
  rfl

/-- The buffer of the frame that was sent is packed with its payload (R142). -/
theorem AfterFrame.pkt_packedAs {k : Kind} {payload : List Byte} {response : Response} {s t : State}
    (h : AfterFrame k payload response s t) :
    PackedAs (s.pkt k) (t.pkt k) (trunc16 (clockRead s).1) payload := by
  obtain ⟨m', hpacked, rfl⟩ := h
  rw [State.pkt, State.pkt, Packets.get_set_same]
  exact hpacked

/-- Settles O28: the record of a text has three bytes more than the text, so 1021 is the longest text that fits. -/
theorem sendTextOutcomeByLength : Obligations.SendTextOutcomeByLength := by
  intro len s
  split
  case isTrue h =>
    have hfits := textRecord_length_le s h
    obtain ⟨t, ht, hframe⟩ := exec_record_frames (recordOf_sendText s (by omega)) hfits
    obtain ⟨-, -, hsize, -⟩ := hframe.pkt_packedAs.fields hfits
    refine ⟨t, ht, hframe, hsize.trans ?_⟩
    simp only [List.length_append, List.length_cons, List.length_nil, le16_length, readBytes_length]
  case isFalse h => exact exec_sendText_too_long s (Nat.lt_of_not_le h)

/-- Settles O29: the record of the empty text is its identifier and a zero length. -/
theorem emptyTextIsFramed : Obligations.EmptyTextIsFramed :=
  fun s => exec_record_frames (recordOf_sendText s (Nat.zero_le _)) (textRecord_length_le s (Nat.zero_le _))

end Sys2Proof.Machine
end

section
/-! PROOFS. A record read back (spec/42_encoder_senders.md R183): a buffer that holds a record from offset 6 gives each
field at its own offset, in the layouts of spec/30_encoding.md R88 to R93. -/

namespace Sys2Proof.Machine

/-! ### Bytes at an offset -/

/-- Each byte of a word is one of the four it is joined of: the bytes joined below it are passed over (R55). -/
theorem le32_word (b0 b1 b2 b3 : Byte) : le32 (word b0 b1 b2 b3) = [b0, b1, b2, b3] := by
  simp only [le32, word, List.cons.injEq, and_true]
  refine ⟨BitVec.extractLsb'_append_eq_right, ?_, ?_, ?_⟩
  · rw [BitVec.extractLsb'_append_eq_of_le (by omega)]
    exact BitVec.extractLsb'_append_eq_right
  · rw [BitVec.extractLsb'_append_eq_of_le (by omega), BitVec.extractLsb'_append_eq_of_le (by omega)]
    exact BitVec.extractLsb'_append_eq_right
  · rw [BitVec.extractLsb'_append_eq_of_le (by omega), BitVec.extractLsb'_append_eq_of_le (by omega)]
    exact BitVec.extractLsb'_append_eq_left

theorem readBytes_read32 (m : Mem) (a : Nat) : readBytes m a 4 = le32 (read32 m a) := by
  rw [read32, le32_word]; rfl

/-- The buffer holds these bytes from offset `a` on. -/
def HoldsAt (m : Mem) (a : Nat) (bs : List Byte) : Prop := readBytes m a bs.length = bs

section
variable {m : Mem} {a : Nat}

@[simp] theorem holdsAt_nil : HoldsAt m a [] := rfl

@[simp] theorem holdsAt_cons {b : Byte} {bs : List Byte} :
    HoldsAt m a (b :: bs) ↔ Mem.read m a = b ∧ HoldsAt m (a + 1) bs := List.cons_eq_cons

@[simp] theorem holdsAt_append {xs ys : List Byte} :
    HoldsAt m a (xs ++ ys) ↔ HoldsAt m a xs ∧ HoldsAt m (a + xs.length) ys := by
  rw [HoldsAt, List.length_append, readBytes_append]
  exact ⟨fun h => List.append_inj h (readBytes_length _ _ _), fun ⟨hx, hy⟩ => congrArg₂ (· ++ ·) hx hy⟩

@[simp] theorem holdsAt_le16 {v : Half} : HoldsAt m a (le16 v) ↔ read16 m a = v :=
  ⟨read16_of_readBytes, fun h => h ▸ readBytes_read16 m a⟩

@[simp] theorem holdsAt_le32 {v : Word} : HoldsAt m a (le32 v) ↔ read32 m a = v :=
  ⟨read32_of_readBytes, fun h => h ▸ readBytes_read32 m a⟩

@[simp] theorem holdsAt_readBytes {m' : Mem} {b n : Nat} :
    HoldsAt m a (readBytes m' b n) ↔ readBytes m a n = readBytes m' b n := by
  rw [HoldsAt, readBytes_length]

end

/-! ### Records -/

/-- A packed buffer holds the marker and the checksum of its used span (R23 (b), R142). -/
theorem PackedAs.packed {m m' : Mem} {t : Half} {payload : List Byte} (h : PackedAs m m' t payload)
    (hl : payload.length ≤ 1024) : packed m' = true := by
  obtain ⟨-, -, hsize, hmark0, hmark1, hsum⟩ := h.fields hl
  simp only [Machine.packed, usedSpan, hsize, Config.offPayload, Config.offChecksum, hmark0, hmark1, hsum,
    Config.hdrByte0, Config.hdrByte1, beq_self_eq_true, Bool.and_self]

/-- R172, R183: a sender whose record fits leaves it in a packed buffer of its kind. -/
theorem exec_record_holds {i : Instr} {s : State} {k : Kind} {record : List Byte}
    (h : recordOf i s = some (k, record)) (hl : record.length ≤ 1024) :
    ∃ t, exec i s = .next t ∧ HoldsAt (t.pkt k) 6 record ∧ packed (t.pkt k) = true := by
  obtain ⟨t, ht, hframe⟩ := exec_record_frames h hl
  obtain ⟨-, hpayload, -⟩ := hframe.pkt_packedAs.fields hl
  exact ⟨t, ht, hpayload, hframe.pkt_packedAs.packed hl⟩

/-- Settles O31, kind by kind: each field of the record stands at its own offset. -/
theorem recordsReadBackAsSent : Obligations.RecordsReadBackAsSent := by
  refine ⟨fun day month year s => ?date, fun hour minute second s => ?time, fun sampleCount value s => ?adc,
    fun len s h => ?text, fun buttonId state s => ?button, fun value s => ?temp⟩
  case date =>
    obtain ⟨t, ht, hrec, hpacked⟩ := exec_record_holds (i := .sendDate day month year) (s := s) rfl (by simp)
    exact ⟨t, ht, by simpa [hpacked, and_assoc] using hrec⟩
  case time =>
    obtain ⟨t, ht, hrec, hpacked⟩ := exec_record_holds (i := .sendTime hour minute second) (s := s) rfl (by simp)
    exact ⟨t, ht, by simpa [hpacked, and_assoc] using hrec⟩
  case adc =>
    obtain ⟨t, ht, hrec, hpacked⟩ := exec_record_holds (i := .sendAdc sampleCount value) (s := s) rfl (by simp)
    exact ⟨t, ht, by simpa [hpacked, and_assoc] using hrec⟩
  case text =>
    obtain ⟨t, ht, hrec, hpacked⟩ := exec_record_holds (recordOf_sendText s (by omega)) (textRecord_length_le s h)
    obtain ⟨hid, hlen, htext⟩ : Mem.read (t.pkt .textMessage) 6 = 4 ∧
        read16 (t.pkt .textMessage) 7 = BitVec.ofNat 16 len ∧
        readBytes (t.pkt .textMessage) 9 len = readBytes s.src 0 len := by simpa [and_assoc] using hrec
    have hfits : len < 2 ^ 16 := by omega
    exact ⟨t, ht, hid, by rw [hlen, BitVec.toNat_ofNat, Nat.mod_eq_of_lt hfits], htext, hpacked⟩
  case button =>
    obtain ⟨t, ht, hrec, hpacked⟩ := exec_record_holds (i := .sendButton buttonId state) (s := s) rfl (by simp)
    exact ⟨t, ht, by simpa [hpacked, and_assoc] using hrec⟩
  case temp =>
    obtain ⟨t, ht, hrec, hpacked⟩ := exec_record_holds (i := .sendTemp value) (s := s) rfl (by simp)
    exact ⟨t, ht, by simpa [hpacked, and_assoc] using hrec⟩

end Sys2Proof.Machine
end

section
/-! PROOFS. The end of every command (spec/60_exceptions.md R201, R202, R212; spec/41_framer_pack_send.md R150): no
well-formed command traps, every command that ends leaves the block idle, and a rejected one changes nothing else. -/

namespace Sys2Proof.Machine

section
variable {i : Instr} {s t : State} {r : Report}

/-- R81: the end of a command clears `busy`. -/
theorem Ended.idle (h : Ended i s r t) : t.busy = false := by
  cases h with
  | rejected why => rfl
  | checksum sp len hi v => rfl
  | packed pkt sp len hi k hk data hd => rfl
  | sent pkt hi k hk hn => rfl
  | framed k hf hp hi data h0 hd buf => rfl

/-- R202: only the guards give a report with a label, and they do nothing but end the command. -/
theorem Ended.eq_afterReject (h : Ended i s r t) {why : Reject} (hl : r.label = some why) :
    t = afterReject why r.response s := by
  cases h with
  | rejected why' => cases hl; rfl
  | checksum sp len hi v => cases hl
  | packed pkt sp len hi k hk data hd => cases hl
  | sent pkt hi k hk hn => cases hl
  | framed k hf hp hi data h0 hd buf => cases hl

end

/-- Settles O34: the last report of the state is the one the command ended with. -/
theorem rejectionChangesNothing : Obligations.RejectionChangesNothing := by
  intro i s t response why h hr
  obtain ⟨r, he⟩ := exec_ended h
  obtain rfl : r = { response := response, label := some why } :=
    List.singleton_inj.1 (List.append_cancel_left (he.reports.symm.trans hr))
  obtain rfl := he.eq_afterReject rfl
  exact ⟨rfl, rfl⟩

/-- A well-formed command runs to its end in a state whose stored sizes are good (R201, R23 (a)). -/
theorem exists_exec_next {i : Instr} {s : State} (hw : i.wellFormed = true)
    (hn : ∀ k, payloadSize (s.pkt k) ≤ 1024) : ∃ t, exec i s = .next t := by
  rw [exec_eq_runWhole]
  cases hb : beginCommand i s with
  | ended t => exact ⟨t, rfl⟩
  | framing k t => exact ⟨_, rfl⟩
  | stopped f => exact absurd hb (beginCommand_ne_stopped hw hn f)

/-- Settles O38: nothing stops the command, and whichever way it ends it gives one report and leaves the block idle. -/
theorem everyCommandEnds : Obligations.EveryCommandEnds := by
  intro i s hw hn
  obtain ⟨t, ht⟩ := exists_exec_next hw hn
  obtain ⟨r, he⟩ := exec_ended ht
  refine ⟨t, ht, he.idle, ?_⟩
  rw [he.reports, List.length_append, List.length_singleton]

end Sys2Proof.Machine
end

section
/-! PROOFS. The clock's answer in a command (spec/60_exceptions.md R210, spec/30_encoding.md R95): a command run from
two states that differ in their clock alone, whose next answers agree in their low 16 bits, comes to the same end but
for the clock. -/

namespace Sys2Proof.Machine

/-! ### Without the clock -/

/-- A state without the width of the clock's bus and the clock's script. -/
def State.clockless (s : State) : State := { s with clockWidth := 0, clock := [] }

/-- What a command has come to, its state without the clock. -/
def Begun.clockless : Begun → Begun
  | .ended s => .ended s.clockless
  | .framing k s => .framing k s.clockless
  | .stopped f => .stopped f

/-- What remains of a command after its beginning does not read the clock (R145). -/
theorem forgetClock_runWhole (response : Response) (b : Begun) :
    forgetClock (runWhole response b) = runWhole response b.clockless := by
  cases b with
  | ended s => rfl
  | framing k s => rfl
  | stopped f => rfl

/-! ### With the next answer given -/

/-- `s` with a clock of `width` bits that answers `now` next and then `rest`. -/
def State.onClock (s : State) (width now : Nat) (rest : List Nat) : State :=
  { s with clockWidth := width, clock := now :: rest }

/-- R95: a timestamp is made of the low 16 bits, which every bus of at least 16 bits carries (R210). -/
theorem trunc16_clockBus {width : Nat} (now : Nat) (h : 16 ≤ width) :
    trunc16 (clockBus width now) = BitVec.ofNat 16 (now % 65536) :=
  BitVec.eq_of_toNat_eq (by simp [trunc16, clockBus_low now h])

section
variable {width width' now now' : Nat} {rest : List Nat}
  (h : trunc16 (clockBus width now) = trunc16 (clockBus width' now'))
include h

/-- A PACK step puts the timestamp in the buffer and in the checksum, and nothing else of the clock anywhere (R142). -/
theorem clockless_layOut (k : Kind) {len : Nat} {data : List Byte} (hd : data.length = len) (s : State) :
    (layOut k len data (s.onClock width now rest)).clockless
      = (layOut k len data (s.onClock width' now' rest)).clockless := by
  have hnow : trunc16 (clockRead (s.onClock width now rest)).1
      = trunc16 (clockRead (s.onClock width' now' rest)).1 := h
  rw [layOut_eq _ _ _ _ hd, layOut_eq _ _ _ _ hd, hnow]
  rfl

theorem clockless_beginPack (pkt : Nat) (sp : Bool) (len : Nat) (s : State) :
    (beginPack pkt sp len (s.onClock width now rest)).clockless
      = (beginPack pkt sp len (s.onClock width' now' rest)).clockless := by
  unfold beginPack
  cases handleKind pkt with
  | none => rfl
  | some k =>
    cases sp with
    | false => rfl
    | true =>
      unfold packStep
      by_cases hl : Config.maxPayload < len
      · simp only [hl, if_true]
        rfl
      · simp only [hl, if_false]
        exact congrArg (fun t => Begun.ended (finish (.status true) none t))
          (clockless_layOut h k (readSrc_length len s) s)

/-- The guards of the SENDDATA steps read the size alone (R170, R171). -/
theorem clockless_beginData (k : Kind) {size : Nat} {data : List Byte} (hd : data.length = size) (s : State) :
    (beginData k size data (s.onClock width now rest)).clockless
      = (beginData k size data (s.onClock width' now' rest)).clockless := by
  rcases Nat.eq_zero_or_pos size with rfl | h0
  · rw [beginData_empty, beginData_empty]
    rfl
  · rcases Nat.lt_or_ge 1024 size with hl | hl
    · rw [beginData_too_long k data _ hl, beginData_too_long k data _ hl]
      rfl
    · rw [beginData_ok h0 hl, beginData_ok h0 hl]
      exact congrArg (Begun.framing k) (clockless_layOut h k hd s)

theorem clockless_beginRecord (k : Kind) (size : Nat) (r : Mem) (s : State) :
    (beginRecord k size r (s.onClock width now rest)).clockless
      = (beginRecord k size r (s.onClock width' now' rest)).clockless :=
  clockless_beginData h k (readBytes_length r 0 size) { s with recBuf := some r }

/-- Every command, command by command: the clock is read by the PACK step alone (R209). -/
theorem clockless_beginCommand (i : Instr) (s : State) :
    (beginCommand i (s.onClock width now rest)).clockless
      = (beginCommand i (s.onClock width' now' rest)).clockless := by
  cases i with
  | sendDate day month year => exact clockless_beginRecord h .date 13 (recDate day month year) s
  | sendTime hour minute second => exact clockless_beginRecord h .time 6 (recTime hour minute second) s
  | sendAdc sampleCount value => exact clockless_beginRecord h .adcSample 7 (recAdc sampleCount value) s
  | sendText sp len =>
    cases sp with
    | false => rfl
    | true =>
      exact clockless_beginRecord h .textMessage (3 + clampText len)
        (recText (readSrc (clampText len) s) (clampText len)) s
  | sendButton buttonId state => exact clockless_beginRecord h .buttonState 4 (recButton buttonId state) s
  | sendTemp value => exact clockless_beginRecord h .mcuTemperature 3 (recTemp value) s
  | crc16 sp len =>
    rw [beginCommand, beginCommand, beginCrc16, beginCrc16]
    split
    · rfl
    · split <;> rfl
  | pack pkt sp len => exact clockless_beginPack h pkt sp len s
  | send pkt =>
    rw [beginCommand, beginCommand, beginSend, beginSend]
    cases handleKind pkt with
    | none => rfl
    | some k =>
      rw [apply_ite Begun.clockless, apply_ite Begun.clockless]
      rfl
  | senddata pkt sp len =>
    rw [beginCommand, beginCommand, beginSenddata, beginSenddata]
    cases handleKind pkt with
    | none => rfl
    | some k =>
      cases sp with
      | false => rfl
      | true => exact clockless_beginData h k (readSrc_length len s) s

end

/-- Settles O37: a command is its beginning run to the end, and both beginnings take the same timestamp. -/
theorem onlyLowClockBitsMatter : Obligations.OnlyLowClockBitsMatter := by
  intro i s width width' now now' rest hw hw' hnow
  have h : trunc16 (clockBus width now) = trunc16 (clockBus width' now') := by
    rw [trunc16_clockBus now hw, trunc16_clockBus now' hw', hnow]
  have hbegin := clockless_beginCommand (rest := rest) h i s
  rw [exec_eq_runWhole, exec_eq_runWhole, forgetClock_runWhole, forgetClock_runWhole]
  exact congrArg (runWhole (frameResponse i)) hbegin

end Sys2Proof.Machine
end

section
/-! PROOFS. Reset, between commands or inside one (spec/70_reset_and_hazards.md R230, R231). -/

namespace Sys2Proof.Machine

/-- R231: `SINK` starts again empty, and its bytes move to what was sent before the reset. -/
@[simp] theorem wire_hostReset (rest : List HostEvent) (s : State) : wire (hostReset rest s) = wire s := by
  change wire s ++ sinkBytes [] = wire s
  rw [sinkBytes, List.flatMap_nil, List.append_nil]

/-- R230, R231: `rst` acts at once, whether a command is in progress or not. -/
theorem step_reset {s : State} {rest : List HostEvent} (hh : s.host = .reset :: rest) :
    step s = .next (hostReset rest s) := by
  unfold step stepWith
  cases s.busy with
  | true => simp only [if_true, busyStep, hh]
  | false => simp only [Bool.false_eq_true, if_false, idleStep, hh]

/-- Settles O46: a busy and an idle block take `rst` alike, the state it leaves has the reset values of O45, and what
the host has been shown (responses, wire) is carried over. -/
theorem resetAbandonsTheCommand : Obligations.ResetAbandonsTheCommand := by
  intro s rest hh
  obtain ⟨hpkt, hcrc, hphase, hidx, hbusy, hready, hsink⟩ := resetValues
  exact ⟨hostReset rest s, step_reset hh, hpkt, hcrc, hphase, hidx, hbusy, hready, rfl, hsink, rfl,
    wire_hostReset rest s, rfl⟩

end Sys2Proof.Machine
end
